-- ==== Sys2Proof/Word.lean ====
section
/-! DEFINITION. The value types of 00_scope.md rule R7 and 30_encoding.md rule R62: bytes, byte strings, mnemonics,
string characters and numeric values. Every value of the block is unsigned. -/

namespace Sys2Proof

/-- A byte, 0x00 to 0xFF (R7). -/
abbrev Byte := BitVec 8

/-- A byte string, offset 0 first (R7). -/
abbrev Bytes := List Byte

/-- The `M` field: `M[15:8]` is the first character's ASCII code, `M[7:0]` the second's (R62, R67). -/
abbrev Mnemonic := BitVec 16

/-- One element of the `S` field, 21 bits (R62). Not every value is a Unicode scalar value (R156). -/
abbrev Scalar := BitVec 21

end Sys2Proof
end

