-- ==== Sys2Proof/Config.lean ====
section
/-! DEFINITION. The implementation parameters of 00_scope.md rule R6, the shape of a command-table row
(43_command_catalog.md rule R150), and the constants without a body that stand for the OPEN parameters. -/

namespace Sys2Proof

/-- Byte width `W` of a `NUM` parameter: 1, 2 or 4 (R150). -/
inductive ParamWidth where
  | one
  | two
  | four
deriving DecidableEq, Repr

/-- `W` as a number. -/
def ParamWidth.bytes : ParamWidth → Nat
  | .one => 1
  | .two => 2
  | .four => 4

/-- `kind` of a command-table row, with the fields that kind has (R150). -/
inductive CmdKind where
  /-- `QUERY`: no action. -/
  | query
  /-- `NUM`: width `W` and valid range `min .. max`. -/
  | num (width : ParamWidth) (min max : Nat)
  /-- `STR`: maximum length in characters. -/
  | str (maxlen : Nat)
deriving DecidableEq, Repr

/-- One row of `CMD_TABLE` (R150). -/
structure CmdRow where
  mnem : Mnemonic
  kind : CmdKind
deriving DecidableEq, Repr

namespace Config

/-- `MAX_PAYLOAD`: a payload's length is representable in 16 bits (R6). -/
def maxPayload : Nat := 65535

/-- `BUF_CAP` = `MAX_PAYLOAD` + 4 (R6, D11): the number of offsets of `buf`. -/
def bufCap : Nat := 65539

/-- The longest `D` operand, in bytes (R62). -/
def maxData : Nat := 65539

/-- The longest `S` operand, in scalar values (92_eei_decisions.md D15). -/
def maxString : Nat := 65535

/-- `NI_MAXLEN`: 20 characters (R6, R153). -/
def niMaxLen : Nat := 20

/-- `SC_MIN` (R6, R153). -/
def scMin : Nat := 0x0001

/-- `BH_MAX` (R6, R153). -/
def bhMax : Nat := 0x1E

/-- The rows an implementation offers as its `CMD_TABLE`: OPEN (R6, R150, D34). It has no body, so nothing can be
proved about its rows; `Machine.configTable` refuses it where it breaks R151. Notes/assumptions 5. -/
opaque offeredRows : List CmdRow

/-- `SC_MAX - 1` for the table of the three fixed rows alone: OPEN, `0x0001 <= SC_MAX <= 0xFFFF` (D32). -/
opaque scMaxLessOne : Fin 0xFFFF

/-- `BH_MIN` for the table of the three fixed rows alone: OPEN, `0x00 <= BH_MIN <= 0x1E` (D33). -/
opaque bhMinOffered : Fin 0x1F

end Config

end Sys2Proof
end

