-- ==== Sys2Proof/Syntax.lean ====
section
/-! DEFINITION. What the host issues (30_encoding.md rules R60, R62) and the instructions it stands for: one
constructor of `Instr` for each row of opcode_table.json (R64, R153). -/

namespace Sys2Proof

/-- The action field `A` (R66). Code 3 is reserved; it is kept, since the status it leads to depends on the
mnemonic (R183). -/
inductive Action where
  | none
  | read
  | write
  | reserved
deriving DecidableEq, Repr

/-- The operand fields of an operation, as the host drives them (R62). An operation reads only the fields its rule
names. -/
structure OpFields where
  op : Byte
  b : Byte := 0
  m : Mnemonic := 0
  a : BitVec 2 := 0
  f : Byte := 0
  v : BitVec 32 := 0
  d : Bytes := []
  s : List Scalar := []
deriving DecidableEq, Repr

/-- What stands where the block finds its next instruction: an operation (the table's format HOSTOP), or a bare word
of the `M` field given to the mnemonic decoder (the table's format MNEMONIC). DESIGN CHOICE, notes/assumptions 1
and 2. -/
inductive Request where
  | op (fields : OpFields)
  | mnemonic (m : Mnemonic)
deriving DecidableEq, Repr

/-- One constructor per row of opcode_table.json, with the operands its rule reads (R64). -/
inductive Instr where
  | rxStart
  | rxPush (b : Byte)
  | rxTake
  | rxStatus
  | escape (d : Bytes)
  | unescape (d : Bytes)
  | chkCompute (d : Bytes)
  | chkValidate (d : Bytes)
  | lenFromPayload (d : Bytes)
  | lenFromRaw (d : Bytes)
  | frameEncode (d : Bytes)
  | cmdEncode (m : Mnemonic) (a : Action) (v : BitVec 32) (str : List Scalar)
  | cmdDecode (m : Mnemonic)
  | atEncode (m : Mnemonic) (a : Action) (f : Byte) (v : BitVec 32) (str : List Scalar)
  | ni
  | sc
  | bh
deriving DecidableEq, Repr

end Sys2Proof
end

