-- ==== Sys2Proof/WellFormed.lean ====
section
/-! DEFINITION. Which instructions the interface can carry: the operand bounds of 30_encoding.md rule R62 and
92_eei_decisions.md D15. -/

namespace Sys2Proof

/-- `D` is a byte string of 0 to 65539 bytes (R62). -/
def dataFits (d : Bytes) : Bool := decide (d.length ≤ Config.maxData)

/-- `S` is a list of at most 65535 elements (R62, D15). -/
def stringFits (str : List Scalar) : Bool := decide (str.length ≤ Config.maxString)

/-- Every operand is one its field can hold. The fixed-width fields hold every value of their type. -/
def wellFormed : Instr → Bool
  | .rxStart => true
  | .rxPush _ => true
  | .rxTake => true
  | .rxStatus => true
  | .escape d => dataFits d
  | .unescape d => dataFits d
  | .chkCompute d => dataFits d
  | .chkValidate d => dataFits d
  | .lenFromPayload d => dataFits d
  | .lenFromRaw d => dataFits d
  | .frameEncode d => dataFits d
  | .cmdEncode _ _ _ str => stringFits str
  | .cmdDecode _ => true
  | .atEncode _ _ _ _ str => stringFits str
  | .ni => true
  | .sc => true
  | .bh => true

end Sys2Proof
end

