-- ==== Sys2Proof/Decode.lean ====
section
/-! DEFINITION. The operation map of 30_encoding.md rule R64 as a table, the decoder from what the host issues to an
instruction, total and rejecting by name, and the encoder written from the same table. -/

namespace Sys2Proof

/-- The fourteen operations, by name (R64). -/
inductive OpName where
  | rxStart | rxPush | rxTake | rxStatus
  | escape | unescape | chkCompute | chkValidate | lenFromPayload | lenFromRaw | frameEncode
  | cmdEncode | cmdDecode | atEncode
deriving DecidableEq, Repr

/-- Why a request is no instruction. -/
inductive DecodeError where
  /-- `OP` is not a code of R64 (R65). -/
  | reservedOp
  /-- The operation reads `D` and `D` is longer than 65539 bytes (R62). -/
  | dataTooLong
  /-- The operation reads `S` and `S` is longer than 65535 elements (D15). -/
  | stringTooLong
deriving DecidableEq, Repr

/-- The operation map, one row per operation code (R64). -/
def opMap : List (Byte × OpName) :=
  [ (0x01, .rxStart), (0x02, .rxPush), (0x03, .rxTake), (0x04, .rxStatus),
    (0x10, .escape), (0x11, .unescape), (0x12, .chkCompute), (0x13, .chkValidate),
    (0x14, .lenFromPayload), (0x15, .lenFromRaw), (0x16, .frameEncode),
    (0x20, .cmdEncode), (0x21, .cmdDecode), (0x22, .atEncode) ]

/-- The operation a code names; none for a reserved code (R64, R65). -/
def decodeOp (code : Byte) : Option OpName := (opMap.find? (·.1 == code)).map (·.2)

/-- The code of an operation (R64). -/
def opCode : OpName → Byte
  | .rxStart => 0x01
  | .rxPush => 0x02
  | .rxTake => 0x03
  | .rxStatus => 0x04
  | .escape => 0x10
  | .unescape => 0x11
  | .chkCompute => 0x12
  | .chkValidate => 0x13
  | .lenFromPayload => 0x14
  | .lenFromRaw => 0x15
  | .frameEncode => 0x16
  | .cmdEncode => 0x20
  | .cmdDecode => 0x21
  | .atEncode => 0x22

/-- The action a code of the `A` field names (R66). -/
def decodeAction (a : BitVec 2) : Action :=
  if a = 0 then .none else if a = 1 then .read else if a = 2 then .write else .reserved

/-- The code of an action (R66). -/
def actionCode : Action → BitVec 2
  | .none => 0
  | .read => 1
  | .write => 2
  | .reserved => 3

/-- The mnemonic words of the three fixed rows (R153). -/
def mnemNI : Mnemonic := 0x4E49
def mnemSC : Mnemonic := 0x5343
def mnemBH : Mnemonic := 0x4248

/-- An operation that reads `D`, refused where `D` is longer than its field (R62). -/
def withData (d : Bytes) (i : Instr) : Except DecodeError Instr :=
  if dataFits d then .ok i else .error .dataTooLong

/-- An operation that reads `S`, refused where `S` is longer than its field (D15). -/
def withString (str : List Scalar) (i : Instr) : Except DecodeError Instr :=
  if stringFits str then .ok i else .error .stringTooLong

/-- The instruction an operation's fields stand for: the operation code is looked at first (R183), and only the
fields the operation's rule names are read (R62). -/
def decodeFields (x : OpFields) : Except DecodeError Instr :=
  match decodeOp x.op with
  | none => .error .reservedOp
  | some .rxStart => .ok .rxStart
  | some .rxPush => .ok (.rxPush x.b)
  | some .rxTake => .ok .rxTake
  | some .rxStatus => .ok .rxStatus
  | some .escape => withData x.d (.escape x.d)
  | some .unescape => withData x.d (.unescape x.d)
  | some .chkCompute => withData x.d (.chkCompute x.d)
  | some .chkValidate => withData x.d (.chkValidate x.d)
  | some .lenFromPayload => withData x.d (.lenFromPayload x.d)
  | some .lenFromRaw => withData x.d (.lenFromRaw x.d)
  | some .frameEncode => withData x.d (.frameEncode x.d)
  | some .cmdEncode => withString x.s (.cmdEncode x.m (decodeAction x.a) x.v x.s)
  | some .cmdDecode => .ok (.cmdDecode x.m)
  | some .atEncode => withString x.s (.atEncode x.m (decodeAction x.a) x.f x.v x.s)

/-- The instruction a bare word of the `M` field stands for: the three fixed rows by name, any other word the mnemonic
decoder's own operation on it (R67, R163). DESIGN CHOICE, notes/assumptions 2. -/
def decodeMnemonicWord (m : Mnemonic) : Instr :=
  if m = mnemNI then .ni else if m = mnemSC then .sc else if m = mnemBH then .bh else .cmdDecode m

/-- The decoder, total on everything the host can issue. -/
def decode : Request → Except DecodeError Instr
  | .op x => decodeFields x
  | .mnemonic m => .ok (decodeMnemonicWord m)

/-- The request that stands for an instruction, from the operation map; the fields its rule does not name are
driven zero or empty (R62, R64). -/
def encode : Instr → Request
  | .rxStart => .op { op := opCode .rxStart }
  | .rxPush b => .op { op := opCode .rxPush, b := b }
  | .rxTake => .op { op := opCode .rxTake }
  | .rxStatus => .op { op := opCode .rxStatus }
  | .escape d => .op { op := opCode .escape, d := d }
  | .unescape d => .op { op := opCode .unescape, d := d }
  | .chkCompute d => .op { op := opCode .chkCompute, d := d }
  | .chkValidate d => .op { op := opCode .chkValidate, d := d }
  | .lenFromPayload d => .op { op := opCode .lenFromPayload, d := d }
  | .lenFromRaw d => .op { op := opCode .lenFromRaw, d := d }
  | .frameEncode d => .op { op := opCode .frameEncode, d := d }
  | .cmdEncode m a v str => .op { op := opCode .cmdEncode, m := m, a := actionCode a, v := v, s := str }
  | .cmdDecode m => .op { op := opCode .cmdDecode, m := m }
  | .atEncode m a f v str => .op { op := opCode .atEncode, m := m, a := actionCode a, f := f, v := v, s := str }
  | .ni => .mnemonic mnemNI
  | .sc => .mnemonic mnemSC
  | .bh => .mnemonic mnemBH

/-- The request whose bits are `w` as opcode_table.json numbers them: 8 bits are the `OP` field of an operation, with
every operand field zero or empty; 16 bits are a word of the `M` field, `M[7:0]` the low bits. -/
def requestOfTableWord (nbits w : Nat) : Option Request :=
  if nbits = 8 then some (.op { op := BitVec.ofNat 8 w })
  else if nbits = 16 then some (.mnemonic (BitVec.ofNat 16 w))
  else none

/-- The instruction the decoder reads from a row's word. -/
def decodeTableWord (nbits w : Nat) : Option Instr :=
  match requestOfTableWord nbits w with
  | none => none
  | some r =>
    match decode r with
    | .ok i => some i
    | .error _ => none

end Sys2Proof
end

