-- ==== Sys2Proof/Machine/Catalog.lean ====
section
/-! DEFINITION. The command table `CMD_TABLE` with the invariants of 43_command_catalog.md rule R151, its fixed rows
(R153), the lookup primitive (R154), and the table a configuration offers. -/

namespace Sys2Proof.Machine

/-- The largest value of a `NUM` parameter of width `W`: `2^(8W) - 1` (R150). -/
def maxOfWidth (w : ParamWidth) : Nat := 256 ^ w.bytes - 1

/-- Both bytes of a mnemonic are ASCII codes (R151). -/
def asciiMnemonic (m : Mnemonic) : Bool :=
  decide ((m.extractLsb' 8 8).toNat ≤ 0x7F) && decide ((m.extractLsb' 0 8).toNat ≤ 0x7F)

/-- `min <= max <= 2^(8W) - 1` for a `NUM` row (R151). -/
def rangeOk : CmdKind → Bool
  | .query => true
  | .num w min max => decide (min ≤ max) && decide (max ≤ maxOfWidth w)
  | .str _ => true

/-- The row `NI` (R153). -/
def rowNI : CmdRow := ⟨mnemNI, .str Config.niMaxLen⟩

/-- The row `SC`, for the `SC_MAX` given (R153). -/
def rowSC (scMax : Nat) : CmdRow := ⟨mnemSC, .num .two Config.scMin scMax⟩

/-- The row `BH`, for the `BH_MIN` given (R153). -/
def rowBH (bhMin : Nat) : CmdRow := ⟨mnemBH, .num .one bhMin Config.bhMax⟩

/-- A row that is `SC`'s, whatever its `SC_MAX`. -/
def isRowSC (r : CmdRow) : Bool :=
  match r.kind with
  | .num _ _ max => r == rowSC max
  | .query => false
  | .str _ => false

/-- A row that is `BH`'s, whatever its `BH_MIN`. -/
def isRowBH (r : CmdRow) : Bool :=
  match r.kind with
  | .num _ min _ => r == rowBH min
  | .query => false
  | .str _ => false

/-- The table invariants (R151): unique mnemonics, ASCII mnemonics, legal ranges, the three fixed rows present. -/
def tableOk (rows : List CmdRow) : Bool :=
  decide ((rows.map CmdRow.mnem).Nodup) &&
  rows.all (fun r => asciiMnemonic r.mnem && rangeOk r.kind) &&
  (rows.any (fun r => r == rowNI) && rows.any isRowSC && rows.any isRowBH)

/-- A value of `CMD_TABLE`. It carries its own check, so no table that breaks R151 can be written ("A model refuses a
table that breaks an invariant"). -/
structure CmdTable where
  rows : List CmdRow
  ok : tableOk rows = true
deriving DecidableEq, Repr

/-- `Lookup` over a list of rows whose first has the index given: the index and the row of the mnemonic (R154). -/
def lookupFrom : List CmdRow → Nat → Mnemonic → Option (Nat × CmdRow)
  | [], _, _ => none
  | r :: rs, i, m => if r.mnem = m then some (i, r) else lookupFrom rs (i + 1) m

/-- `Lookup(M)`, with the row beside its index (R154). Matching is exact on all 16 bits. -/
def lookup (t : CmdTable) (m : Mnemonic) : Option (Nat × CmdRow) := lookupFrom t.rows 0 m

/-- The table of the three fixed rows alone. -/
def fixedRows (scMax bhMin : Nat) : List CmdRow := [rowNI, rowSC scMax, rowBH bhMin]

theorem fixedRows_ok (scMax bhMin : Nat) (h1 : 1 ≤ scMax) (h2 : scMax ≤ 0xFFFF) (h3 : bhMin ≤ 0x1E) :
    tableOk (fixedRows scMax bhMin) = true := by
  have hn : ([mnemNI, mnemSC, mnemBH] : List Mnemonic).Nodup := by decide
  have ha : asciiMnemonic mnemNI = true ∧ asciiMnemonic mnemSC = true ∧ asciiMnemonic mnemBH = true := by decide
  simp [tableOk, fixedRows, rowNI, rowSC, rowBH, isRowSC, isRowBH, rangeOk, maxOfWidth, ParamWidth.bytes,
    Config.scMin, Config.bhMax, ha] at hn ⊢
  exact ⟨hn, ⟨h1, decide_eq_true h2⟩, h3⟩

/-- The table the configuration offers, where it satisfies R151; the table of the three fixed rows alone, with open
bounds, where it does not. No row of it can be proved beyond what R151 and R153 fix. -/
def configTable : CmdTable :=
  if h : tableOk Config.offeredRows = true then ⟨Config.offeredRows, h⟩
  else
    ⟨fixedRows (Config.scMaxLessOne.val + 1) Config.bhMinOffered.val,
      fixedRows_ok _ _ (Nat.le_add_left 1 _) Config.scMaxLessOne.isLt (Nat.lt_succ_iff.mp Config.bhMinOffered.isLt)⟩

end Sys2Proof.Machine
end

