-- ==== Sys2Proof/Machine/State.lean ====
section
/-! DEFINITION. The state of the block: the receive accumulator (10_state.md rules R22 to R26), the parameter
`CMD_TABLE` (R32), and the host's side of the interface; the reasons a step can stop; the state after reset (R33). -/

namespace Sys2Proof.Machine

/-- `rx_state`, the four states of R22. -/
inductive RxState where
  | empty
  | accum
  | complete
  | cksumErr
deriving DecidableEq, Repr

/-- The status codes that are returned (R180); codes 11 to 15 are reserved and never returned. -/
inductive Status where
  | ok
  | checksumMismatch
  | structurallyTooShort
  | noMatch
  | lengthOverflow
  | outOfBounds
  | illegalOp
  | illegalAction
  | notReady
  | busy
  | illegalValue
deriving DecidableEq, Repr

/-- What an operation returns (R63): the status, and each output field it produces. `none` is a field the operation
does not produce (R64). Notes/assumptions 4. -/
structure Response where
  st : Status
  out : Option Bytes
  q : Option (BitVec 16)
  stat : Option (BitVec 32)
deriving DecidableEq, Repr

/-- The receive buffer's bytes by offset (R26, R40), in one canonical form: offsets strictly rising, and no entry equal to
what an unlisted offset reads as (`Memory.unlisted`). Each of the 65539 offsets holds one byte. -/
abbrev Memory := List Host.Cell

/-- What stops the machine. The block itself has no faults (R14, R184): from a state that meets the invariant of R30
neither is raised. -/
inductive Fault where
  /-- Raised by the append of `RX_PUSH` at an offset the buffer does not have (R40: offsets 0 to 65538). Safe: the
  model stops. -/
  | appendOutsideBuffer
  /-- Raised by `RX_TAKE` in COMPLETE where `len` counts offsets the buffer does not have (R40: offsets 0 to 65538).
  Safe: the model stops. -/
  | readOutsideBuffer
deriving DecidableEq, Repr

/-- Why an instruction has no meaning here. -/
inductive Refusal where
  /-- Raised by `exec` on an instruction that has no meaning yet. Safe. -/
  | notModelled (mnemonic : String)
  /-- Raised by the step on an issued operation whose `D` or `S` is longer than its field (R62, D15): the interface
  cannot carry it. Safe. -/
  | operandTooLong
deriving DecidableEq, Repr

/-- The machine's state. -/
structure State where
  /-- `rx_state` (R22). -/
  rxState : RxState
  /-- `len`, 17 bits (R23). -/
  len : BitVec 17
  /-- `esc_pending` (R24). -/
  escPending : Bool
  /-- `csum`, the running checksum (R25). -/
  csum : Byte
  /-- `buf`, the receive buffer (R26, R40). -/
  buf : Memory
  /-- `CMD_TABLE`, a parameter: no step changes it (R13, R32). Notes/assumptions 5. -/
  cmdTable : CmdTable
  /-- The operations the host issues, in order of issue; the head is the next to be executed (R50, R60). The model's
  own field: notes/assumptions 3. -/
  issued : List Request
  /-- What the last operation returned (R60, R63). The model's own field: notes/assumptions 4. -/
  resp : Option Response
deriving DecidableEq, Repr

/-- The state after reset (R33, R200): the accumulator is `EMPTY`, no byte of `buf` is readable and none is listed
(notes/assumptions 7), nothing has been issued and nothing has been returned. -/
def State.reset : State where
  rxState := .empty
  len := 0
  escPending := false
  csum := 0
  buf := []
  cmdTable := configTable
  issued := []
  resp := none

end Sys2Proof.Machine
end

