-- ==== Sys2Proof/Machine/Ops.lean ====
section
/-! DEFINITION. The named operations over the receive buffer and the accumulator's registers, and the one shared way
an operation returns a status: `raise` (00_scope.md rule R8, 60_exceptions.md rule R184: the block has no traps). -/

namespace Sys2Proof.Machine

/-! ### The receive buffer (20_memory.md rules R40 to R42) -/

/-- What an unlisted offset holds. The contents of `buf` after reset are unspecified, "any value" (R26, R33, U8); the model
takes 0x00. DESIGN CHOICE, notes/assumptions 7: no operation reads a byte nothing has written. -/
def Memory.unlisted : Byte := 0x00

/-- The byte at an offset: the one listed, or what an unlisted offset holds. -/
def Memory.byteAt : Memory → Nat → Byte
  | [], _ => Memory.unlisted
  | (k, b) :: m, a => if k = a then b else Memory.byteAt m a

/-- `MemRead(a, 1)` (R8, R42): each offset 0 to 65538 holds one byte, and no other offset exists (R40). -/
def Memory.read (m : Memory) (a : Nat) : Option Byte :=
  if a < Config.bufCap then some (Memory.byteAt m a) else none

/-- `m` with an entry put before it, left out where an unlisted offset holds that byte. -/
def Memory.consEntry (a : Nat) (b : Byte) (m : Memory) : Memory :=
  if b = Memory.unlisted then m else (a, b) :: m

/-- `MemWrite(a, 1, b)` (R8, R42): the entry for `a` is put in its place. -/
def Memory.write : Memory → Nat → Byte → Memory
  | [], a, b => Memory.consEntry a b []
  | (k, c) :: m, a, b =>
    if a < k then Memory.consEntry a b ((k, c) :: m)
    else if k = a then Memory.consEntry a b m
    else (k, c) :: Memory.write m a b

/-- Every offset listed is above `a`. -/
def Memory.above (a : Nat) (m : Memory) : Bool := m.all (fun c => decide (a < c.1))

/-- The canonical form: offsets strictly rising, and no entry equal to what an unlisted offset holds. -/
def Memory.wf : Memory → Bool
  | [] => true
  | (k, b) :: m => Memory.above k m && decide (b ≠ Memory.unlisted) && Memory.wf m

/-- `buf[a .. a+n-1]`: the bytes at `n` offsets from `a` on, none where the buffer does not have one of them
(R7, R40). -/
def Memory.readRange (m : Memory) : Nat → Nat → Option Bytes
  | _, 0 => some []
  | a, n + 1 =>
    match Memory.read m a, Memory.readRange m (a + 1) n with
    | some b, some bs => some (b :: bs)
    | _, _ => none

/-- `buf[0..len-1]` (R26, R129). -/
def heldBytes (s : State) : Option Bytes := Memory.readRange s.buf 0 s.len.toNat

/-! ### The accumulator's registers -/

/-- `rx_state <- EMPTY; len <- 0; csum <- 0; esc_pending <- 0` (R129, R130). The bytes in `buf` stay where they are
(R130, R26). -/
def clearAccumulator (s : State) : State :=
  { s with rxState := .empty, len := 0, csum := 0, escPending := false }

/-- The block's reset, applied between operations: the same effect on the state as `RX_START` (R200, R33).
Notes/assumptions 9. -/
def hardwareReset (s : State) : State := clearAccumulator s

/-- The input stage of an accepted push: `rx_state <- ACCUM`, and the escape bit the unescape state machine left
(R122, R127). -/
def acceptRaw (s : State) (pending : Bool) : State := { s with rxState := .accum, escPending := pending }

/-- The state after `Append(d)` (R124). -/
def appended (s : State) (d : Byte) : State :=
  { s with
    buf := Memory.write s.buf s.len.toNat d
    csum := if 3 ≤ s.len.toNat then s.csum + d else s.csum
    len := s.len + 1 }

/-- `Append(d)` (R124); the offset must be one the buffer has (R40). Notes/assumptions 8. -/
def appendByte (s : State) (d : Byte) : Except Fault State :=
  if s.len.toNat < Config.bufCap then .ok (appended s d) else .error .appendOutsideBuffer

/-- `rx_state <- COMPLETE` (R126). -/
def holdFrame (s : State) : State := { s with rxState := .complete }

/-- A frame that failed validation is discarded: `len <- 0; csum <- 0; rx_state <- CKSUM_ERR` (R126). -/
def discardFrame (s : State) : State := { s with len := 0, csum := 0, rxState := .cksumErr }

/-! ### Returning to the host (30_encoding.md rule R63) -/

/-- The operation returns `r`. -/
def respond (s : State) (r : Response) : State := { s with resp := some r }

/-- The operation ends and returns `r`, having made no state change of its own. -/
def answer (s : State) (r : Response) : Host.Outcome State Fault Refusal := .next (respond s r)

/-- What a status other than `OK` returns: `OUT = []` and `Q = 0` (R63). -/
def errorResponse (st : Status) : Response := ⟨st, some [], some 0, none⟩

/-- `raise st`: return the status with no outputs and no state change (R8, R184). -/
def raise (s : State) (st : Status) : Host.Outcome State Fault Refusal := answer s (errorResponse st)

/-- `OK` and nothing else. -/
def okOnly : Response := ⟨.ok, none, none, none⟩

/-- `OK` with `OUT`. -/
def okOut (out : Bytes) : Response := ⟨.ok, some out, none, none⟩

/-- `OK` with `Q`. -/
def okQ (q : BitVec 16) : Response := ⟨.ok, none, some q, none⟩

/-! ### What the host issues -/

/-- The next operation in order of issue, taken from the list, and the state it is executed in (R50, R60). -/
def takeIssued (s : State) : Option (Request × State) :=
  match s.issued with
  | [] => none
  | r :: rest => some (r, { s with issued := rest })

/-- What becomes of a request that is no instruction: a reserved operation code returns `ILLEGAL_OP`, changes no state
and produces no output (R65); an operand longer than its field cannot be carried by the interface (R62, D15,
notes/assumptions 6). -/
def rejectRequest (e : DecodeError) (s : State) : Host.Outcome State Fault Refusal :=
  match e with
  | .reservedOp => raise s .illegalOp
  | .dataTooLong => .refused .operandTooLong
  | .stringTooLong => .refused .operandTooLong

/-- The state in which `r` is the next operation issued. -/
def issueNext (s : State) (r : Request) : State := { s with issued := r :: s.issued }

end Sys2Proof.Machine
end

