-- ==== Sys2Proof/Machine/Operands.lean ====
section
/-! DEFINITION. How values are assembled into bytes (30_encoding.md rules R67 to R70; 00_scope.md rules R9, R10;
43_command_catalog.md rules R155 to R157). -/

namespace Sys2Proof.Machine

/-- `be_N(v)`: `N` bytes, the most significant first; defined for `v < 2^(8N)` (R9, R43). -/
def beBytes : Nat → Nat → Bytes
  | 0, _ => []
  | n + 1, v => BitVec.ofNat 8 (v / 256 ^ n) :: beBytes n v

/-- `ascii(mnemonic) = [M[15:8], M[7:0]]` (R10, R67). -/
def mnemonicBytes (m : Mnemonic) : Bytes := [m.extractLsb' 8 8, m.extractLsb' 0 8]

/-- `256 * msb + lsb` (R45). -/
def lengthOfPair (msb lsb : Byte) : Nat := 256 * msb.toNat + lsb.toNat

/-- The 16-bit length split big-endian: `[n[15:8], n[7:0]]` (R70, R104). -/
def lengthPair (n : Nat) : Bytes := beBytes 2 n

/-- `clamp(V)`: the nearest bound of the range, compared unsigned (R155, D14). -/
def clampTo (min max v : Nat) : Nat := if v < min then min else if max < v then max else v

/-- The numeric parameter (R155): a value wider than the parameter is refused before it is clamped (D31). -/
def numericParam (w : ParamWidth) (min max : Nat) (v : BitVec 32) : Except Status Bytes :=
  if maxOfWidth w < v.toNat then .error .illegalValue
  else .ok (beBytes w.bytes (clampTo min max v.toNat))

/-- A Unicode scalar value: at most 0x10FFFF and no surrogate (R156). -/
def scalarOk (c : Scalar) : Bool :=
  decide (c.toNat ≤ 0x10FFFF) && !(decide (0xD800 ≤ c.toNat) && decide (c.toNat ≤ 0xDFFF))

/-- `UTF8(c)` (R157, G1). -/
def utf8 (c : Scalar) : Bytes :=
  if c.toNat ≤ 0x7F then [c.setWidth 8]
  else if c.toNat ≤ 0x7FF then
    [0xC0 + (c.extractLsb' 6 5).setWidth 8, 0x80 + (c.extractLsb' 0 6).setWidth 8]
  else if c.toNat ≤ 0xFFFF then
    [0xE0 + (c.extractLsb' 12 4).setWidth 8, 0x80 + (c.extractLsb' 6 6).setWidth 8,
      0x80 + (c.extractLsb' 0 6).setWidth 8]
  else
    [0xF0 + (c.extractLsb' 18 3).setWidth 8, 0x80 + (c.extractLsb' 12 6).setWidth 8,
      0x80 + (c.extractLsb' 6 6).setWidth 8, 0x80 + (c.extractLsb' 0 6).setWidth 8]

/-- The string parameter (R156): every element is checked, the first `maxlen` characters are sent. -/
def stringParam (maxlen : Nat) (str : List Scalar) : Except Status Bytes :=
  if str.all scalarOk then .ok ((str.take maxlen).flatMap utf8) else .error .illegalValue

end Sys2Proof.Machine
end

