-- ==== Sys2Proof/Machine/Flags.lean ====
section
/-! DEFINITION. The block has no flags or condition codes (10_state.md rule R28). What it has in their place: the
read-only view `STATUS` (R27), the numeric codes of states and statuses (R22, R180), and the derived level `rx_done`
(60_exceptions.md rule R186). -/

namespace Sys2Proof.Machine

/-- The encoding of `rx_state` (R22). -/
def rxStateCode : RxState → BitVec 2
  | .empty => 0
  | .accum => 1
  | .complete => 2
  | .cksumErr => 3

/-- The numeric status codes `ST` (R180). -/
def statusCode : Status → BitVec 4
  | .ok => 0
  | .checksumMismatch => 1
  | .structurallyTooShort => 2
  | .noMatch => 3
  | .lengthOverflow => 4
  | .outOfBounds => 5
  | .illegalOp => 6
  | .illegalAction => 7
  | .notReady => 8
  | .busy => 9
  | .illegalValue => 10

/-- `STATUS = zext_32(len) << 8 | esc_pending << 2 | rx_state` (R27). -/
def statusWord (s : State) : BitVec 32 :=
  (s.len.setWidth 32 <<< 8) ||| ((BitVec.ofBool s.escPending).setWidth 32 <<< 2) ||| (rxStateCode s.rxState).setWidth 32

/-- `STATUS.STATE` of a copy of `STATUS` (R27). -/
def stateField (stat : BitVec 32) : BitVec 2 := stat.extractLsb' 0 2

/-- The level `rx_done` (R186, D22). -/
def rxDone (s : State) : Bool := stateField (statusWord s) == 2 || stateField (statusWord s) == 3

/-- What `RX_PUSH` returns when it answers `OK`: the status and a copy of `STATUS` after the push (R127). -/
def pushOk (s : State) : Response := ⟨.ok, none, none, some (statusWord s)⟩

/-- What `RX_PUSH` returns with another status: `OUT = []`, `Q = 0` (R63) and a copy of `STATUS` after the push
(R127). -/
def pushError (st : Status) (s : State) : Response := ⟨st, some [], some 0, some (statusWord s)⟩

end Sys2Proof.Machine
end

