-- ==== Sys2Proof/Machine/ByteStuffing.lean ====
section
/-! DEFINITION. The byte-stuffing codec: 40_byte_stuffing.md. -/

namespace Sys2Proof.Machine

/-- `ESC` (R80). -/
def escByte : Byte := 0x7D

/-- `MASK` (R80). -/
def escMask : Byte := 0x20

/-- `b in RES`, `RES = {0x7E, 0x7D, 0x11, 0x13}` (R80). -/
def reserved (b : Byte) : Bool := b == 0x7E || b == 0x7D || b == 0x11 || b == 0x13

/-- `EscByte(b)` (R81). -/
def escapeByte (b : Byte) : Bytes := if reserved b then [escByte, b ^^^ escMask] else [b]

/-- `Esc(s)` (R81). -/
def esc (s : Bytes) : Bytes := s.flatMap escapeByte

/-- `UnescStep(p, b)`: the next state and the byte output, if any (R82, R89). -/
def unescStep (p : Bool) (b : Byte) : Bool × Option Byte :=
  if p then (false, some (b ^^^ escMask))
  else if b = escByte then (true, none)
  else (false, some b)

/-- `UnescStep` folded over a byte string from the state `p`: the final state and the outputs, concatenated (R84,
R90). -/
def unescFrom : Bool → Bytes → Bool × Bytes
  | p, [] => (p, [])
  | p, b :: s =>
    match unescStep p b with
    | (p', o) => ((unescFrom p' s).1, o.toList ++ (unescFrom p' s).2)

/-- `ESCAPE` (R86). -/
def execEscape (d : Bytes) (s : State) : Host.Outcome State Fault Refusal := answer s (okOut (esc d))

/-- `UNESCAPE`, from a fresh unescape state; `Q` reports a trailing unresolved escape byte (R87, D25). -/
def execUnescape (d : Bytes) (s : State) : Host.Outcome State Fault Refusal :=
  answer s ⟨.ok, some (unescFrom false d).2, some ((BitVec.ofBool (unescFrom false d).1).setWidth 16), none⟩

end Sys2Proof.Machine
end

