-- ==== Sys2Proof/Machine/Envelope.lean ====
section
/-! DEFINITION. Checksum, frame length and frame envelope: 41_checksum_length_envelope.md; the frame layout of
20_memory.md rules R47 to R49. -/

namespace Sys2Proof.Machine

/-- The frame-type tags the spec lists (R48). Only the AT-Command request is produced by the block; the others are
named for reference. -/
inductive FrameType where
  | atCommand
  | atCommandResponse
  | transmitRequest
  | transmitStatus
  | receivePacket
deriving DecidableEq, Repr

/-- The tag byte of a frame type (R48). -/
def frameTag : FrameType → Byte
  | .atCommand => 0x08
  | .atCommandResponse => 0x88
  | .transmitRequest => 0x10
  | .transmitStatus => 0x8B
  | .receivePacket => 0x90

/-- The delimiter, the first byte of every frame (R11, R47). -/
def delimiter : Byte := 0x7E

/-- The overhead of a frame: delimiter, two length bytes, checksum (R47, R125). -/
def overhead : Nat := 4

/-- `Sum8(p)`: the 8-bit adder that wraps modulo 256 (R100). -/
def sum8 : Bytes → Byte
  | [] => 0
  | b :: p => b + sum8 p

/-- `Chk(p) = 0xFF - Sum8(p)` (R100). -/
def chk (p : Bytes) : Byte := 0xFF - sum8 p

/-- `Frame(p)` (R106, R47). -/
def frame (p : Bytes) : Bytes := [delimiter] ++ lengthPair p.length ++ p ++ [chk p]

/-- `Wire(p)`: the delimiter as is, every later byte escaped (R106, R49, C1). -/
def wire (p : Bytes) : Bytes := [delimiter] ++ esc (lengthPair p.length ++ p ++ [chk p])

/-- `CHK_COMPUTE` (R101). -/
def execChkCompute (d : Bytes) (s : State) : Host.Outcome State Fault Refusal := answer s (okQ ((chk d).setWidth 16))

/-- `CHK_VALIDATE`: the bytes before offset 3 are not read (R102, D26). -/
def execChkValidate (d : Bytes) (s : State) : Host.Outcome State Fault Refusal :=
  if d.length < overhead then raise s .outOfBounds
  else if sum8 (d.drop 3) = 0xFF then answer s (okQ 1)
  else raise s .checksumMismatch

/-- `LEN_FROM_PAYLOAD` (R104, D12). -/
def execLenFromPayload (d : Bytes) (s : State) : Host.Outcome State Fault Refusal :=
  if Config.maxPayload < d.length then raise s .lengthOverflow else answer s (okOut (lengthPair d.length))

/-- `LEN_FROM_RAW`: offsets 1 and 2 as they stand (R105, D26). -/
def execLenFromRaw (d : Bytes) (s : State) : Host.Outcome State Fault Refusal :=
  match d with
  | _ :: msb :: lsb :: _ => answer s (okOut [msb, lsb])
  | _ => raise s .outOfBounds

/-- `FRAME_ENCODE` (R107, D12, D13). -/
def execFrameEncode (d : Bytes) (s : State) : Host.Outcome State Fault Refusal :=
  if d.length = 0 then raise s .structurallyTooShort
  else if Config.maxPayload < d.length then raise s .lengthOverflow
  else answer s (okOut (wire d))

end Sys2Proof.Machine
end

