-- ==== Sys2Proof/Machine/Receive.lean ====
section
/-! DEFINITION. The streaming frame accumulator: 42_rx_accumulator.md. -/

namespace Sys2Proof.Machine

/-- `Complete?()`: `len > 3` and `len = 256 * buf[1] + buf[2] + 4` (R125, C3). -/
def frameComplete (s : State) : Bool :=
  decide (3 < s.len.toNat) &&
    decide (s.len.toNat = lengthOfPair (Memory.byteAt s.buf 1) (Memory.byteAt s.buf 2) + overhead)

/-- After an append: test completeness, and validate a complete frame once (R125, R126, R127). -/
def finishPush (s : State) : Host.Outcome State Fault Refusal :=
  if frameComplete s then
    if s.csum = 0xFF then answer (holdFrame s) (pushOk (holdFrame s))
    else answer (discardFrame s) (pushError .checksumMismatch (discardFrame s))
  else answer s (pushOk s)

/-- The datapath of an accepted push: the input stage, then the append of the byte it outputs, if any (R122 to
R124). -/
def acceptPush (b : Byte) (s : State) : Host.Outcome State Fault Refusal :=
  match unescStep s.escPending b with
  | (p, none) => answer (acceptRaw s p) (pushOk (acceptRaw s p))
  | (p, some d) =>
    match appendByte (acceptRaw s p) d with
    | .error e => .fault e
    | .ok t => finishPush t

/-- `RX_PUSH`: while a result is held the byte is not consumed (R127, R133, D9). -/
def execRxPush (b : Byte) (s : State) : Host.Outcome State Fault Refusal :=
  match s.rxState with
  | .empty => acceptPush b s
  | .accum => acceptPush b s
  | .complete => answer s (pushError .busy s)
  | .cksumErr => answer s (pushError .busy s)

/-- `RX_TAKE`: the result of a read, which it clears (R129). In `CKSUM_ERR` the buffer was already discarded, so only
`rx_state` changes. -/
def execRxTake (s : State) : Host.Outcome State Fault Refusal :=
  match s.rxState with
  | .empty => raise s .notReady
  | .accum => raise s .notReady
  | .complete =>
    match heldBytes s with
    | some bytes => answer (clearAccumulator s) (okOut bytes)
    | none => .fault .readOutsideBuffer
  | .cksumErr => raise { s with rxState := .empty } .checksumMismatch

/-- `RX_START`: the explicit reset of the accumulator, legal in every state (R130, D10). -/
def execRxStart (s : State) : Host.Outcome State Fault Refusal := answer (clearAccumulator s) okOnly

/-- `RX_STATUS` (R131). -/
def execRxStatus (s : State) : Host.Outcome State Fault Refusal := answer s ⟨.ok, none, none, some (statusWord s)⟩

end Sys2Proof.Machine
end

