-- ==== Sys2Proof/Machine/Command.lean ====
section
/-! DEFINITION. The command mnemonic decoder and parameter encoder: 43_command_catalog.md. -/

namespace Sys2Proof.Machine

/-- `ActionLegal(kind, A)` (R161). -/
def actionLegal : CmdKind → Action → Bool
  | .query, a => a == .none
  | .num _ _ _, a => a == .read || a == .write
  | .str _, a => a == .read || a == .write

/-- The parameter bytes of a legal action (R155, R156, R158): only a `WRITE` has any. -/
def commandParam (k : CmdKind) (a : Action) (v : BitVec 32) (str : List Scalar) : Except Status Bytes :=
  if a = .write then
    match k with
    | .query => .ok []
    | .num w min max => numericParam w min max v
    | .str maxlen => stringParam maxlen str
  else .ok []

/-- `Encode(M, A, V, S)`, its checks in the order of R183 (R160). -/
def encodeCommand (t : CmdTable) (m : Mnemonic) (a : Action) (v : BitVec 32) (str : List Scalar) :
    Except Status Bytes :=
  match lookup t m with
  | none => .error .noMatch
  | some (_, r) =>
    if actionLegal r.kind a then
      match commandParam r.kind a v str with
      | .error st => .error st
      | .ok param => .ok (mnemonicBytes m ++ param)
    else .error .illegalAction

/-- What the operation returns: the bytes, or the status raised. -/
def resultOut : Except Status Bytes → Response
  | .ok out => okOut out
  | .error st => errorResponse st

/-- The AT-Command request payload around an encoded command (R167). -/
def atPayload (f : Byte) (command : Bytes) : Bytes := [frameTag .atCommand, f] ++ command

/-- The wire bytes of an AT-Command request, or the status raised (R166). -/
def encodeAtRequest (t : CmdTable) (m : Mnemonic) (a : Action) (f : Byte) (v : BitVec 32) (str : List Scalar) :
    Except Status Bytes :=
  match encodeCommand t m a v str with
  | .error st => .error st
  | .ok c =>
    if Config.maxPayload < (atPayload f c).length then .error .lengthOverflow else .ok (wire (atPayload f c))

/-- What the mnemonic decoder answers: the row's index, or `NO_MATCH` with `Q = 0` (R163, R164). -/
def decodeResponse (t : CmdTable) (m : Mnemonic) : Response :=
  match lookup t m with
  | none => errorResponse .noMatch
  | some (i, _) => okQ (BitVec.ofNat 16 i)

/-- `CMD_ENCODE` (R160). -/
def execCmdEncode (m : Mnemonic) (a : Action) (v : BitVec 32) (str : List Scalar) (s : State) :
    Host.Outcome State Fault Refusal :=
  answer s (resultOut (encodeCommand s.cmdTable m a v str))

/-- `CMD_DECODE` (R163). -/
def execCmdDecode (m : Mnemonic) (s : State) : Host.Outcome State Fault Refusal :=
  answer s (decodeResponse s.cmdTable m)

/-- `AT_ENCODE` (R166). -/
def execAtEncode (m : Mnemonic) (a : Action) (f : Byte) (v : BitVec 32) (str : List Scalar) (s : State) :
    Host.Outcome State Fault Refusal :=
  answer s (resultOut (encodeAtRequest s.cmdTable m a f v str))

/-- The word `NI` given to the mnemonic decoder (R153, R163). DESIGN CHOICE, notes/assumptions 2. -/
def execNi (s : State) : Host.Outcome State Fault Refusal := answer s (decodeResponse s.cmdTable mnemNI)

/-- The word `SC` given to the mnemonic decoder (R153, R163). DESIGN CHOICE, notes/assumptions 2. -/
def execSc (s : State) : Host.Outcome State Fault Refusal := answer s (decodeResponse s.cmdTable mnemSC)

/-- The word `BH` given to the mnemonic decoder (R153, R163). DESIGN CHOICE, notes/assumptions 2. -/
def execBh (s : State) : Host.Outcome State Fault Refusal := answer s (decodeResponse s.cmdTable mnemBH)

end Sys2Proof.Machine
end

