-- ==== Sys2Proof/Machine/Dispatch.lean ====
section
/-! DEFINITION. The meaning of every instruction: one arm per constructor of `Instr`. -/

namespace Sys2Proof.Machine

def exec (i : Instr) (s : State) : Host.Outcome State Fault Refusal :=
  match i with
  | .rxStart => Sys2Proof.Machine.execRxStart s
  | .rxPush b => Sys2Proof.Machine.execRxPush b s
  | .rxTake => Sys2Proof.Machine.execRxTake s
  | .rxStatus => Sys2Proof.Machine.execRxStatus s
  | .escape d => Sys2Proof.Machine.execEscape d s
  | .unescape d => Sys2Proof.Machine.execUnescape d s
  | .chkCompute d => Sys2Proof.Machine.execChkCompute d s
  | .chkValidate d => Sys2Proof.Machine.execChkValidate d s
  | .lenFromPayload d => Sys2Proof.Machine.execLenFromPayload d s
  | .lenFromRaw d => Sys2Proof.Machine.execLenFromRaw d s
  | .frameEncode d => Sys2Proof.Machine.execFrameEncode d s
  | .cmdEncode m a v str => Sys2Proof.Machine.execCmdEncode m a v str s
  | .cmdDecode m => Sys2Proof.Machine.execCmdDecode m s
  | .atEncode m a f v str => Sys2Proof.Machine.execAtEncode m a f v str s
  | .ni => Sys2Proof.Machine.execNi s
  | .sc => Sys2Proof.Machine.execSc s
  | .bh => Sys2Proof.Machine.execBh s

end Sys2Proof.Machine
end

