-- ==== Sys2Proof/Machine/Step.lean ====
section
/-! DEFINITION. One step of the block: the next issued operation, executed atomically (00_scope.md rule R15,
20_memory.md rules R42, R50). -/

namespace Sys2Proof.Machine

/-- One step. Where the host has issued nothing, the block does nothing (R60; notes/assumptions 3). -/
def step (s : State) : Host.Outcome State Fault Refusal :=
  match takeIssued s with
  | none => .next s
  | some (r, t) =>
    match decode r with
    | .error e => rejectRequest e t
    | .ok i => exec i t

/-- `s` with the instruction of a row's word issued next, before everything still to come. -/
def State.withFetchWord (s : State) (nbits w : Nat) : State :=
  match requestOfTableWord nbits w with
  | none => s
  | some r => issueNext s r

end Sys2Proof.Machine
end

