-- ==== Sys2Proof/Machine/HostPrograms.lean ====
section
/-! DEFINITION. The two host-side expansions of 30_encoding.md rule R72, written over `exec`. They add no behaviour to
the block. Notes/assumptions 10. -/

namespace Sys2Proof.Machine

/-- `RX_FEED [b0 .. bk]`: one `RX_PUSH` for each byte, each issued whatever the previous one returned (R72). -/
def rxFeed (bytes : Bytes) : List Instr := bytes.map Instr.rxPush

/-- The operations of a host program executed in order of issue; it stops where one of them stops (R50). -/
def runOps : List Instr → State → Host.Outcome State Fault Refusal
  | [], s => .next s
  | i :: is, s =>
    match exec i s with
    | .next t => runOps is t
    | .fault e => .fault e
    | .refused e => .refused e

/-- The last push returned `STAT.STATE` equal to `COMPLETE` or `CKSUM_ERR` (R72). -/
def pushReportsResult (s : State) : Bool :=
  match s.resp with
  | none => false
  | some r =>
    match r.stat with
    | none => false
    | some w => stateField w == 2 || stateField w == 3

/-- `RX_PUSH` of each byte the transport delivers until one reports a result: the state then, and the bytes not yet
pushed. `none` where the delivered bytes run out first: the read has not ended (R72, R206). -/
def pushUntilResult : Bytes → State → Option (State × Bytes)
  | [], _ => none
  | b :: bytes, s =>
    match exec (.rxPush b) s with
    | .next t => if pushReportsResult t then some (t, bytes) else pushUntilResult bytes t
    | .fault _ => none
    | .refused _ => none

/-- `READ_FRAME` on the bytes the transport delivers: the state after the `RX_TAKE`, whose `resp` is the result, and
the bytes not pushed (R72). -/
def readFrame (bytes : Bytes) (s : State) : Option (State × Bytes) :=
  match exec .rxStart s with
  | .fault _ => none
  | .refused _ => none
  | .next s0 =>
    match pushUntilResult bytes s0 with
    | none => none
    | some (t, rest) =>
      match exec .rxTake t with
      | .next u => some (u, rest)
      | .fault _ => none
      | .refused _ => none

end Sys2Proof.Machine
end

