-- ==== Sys2Proof/Safety.lean ====
section
/-! DEFINITION. What a state of the block must satisfy (10_state.md rules R22, R25, R26, R30), in the terms the
statements use. -/

namespace Sys2Proof.Machine

/-- `N = 256 * buf[1] + buf[2]` for the bytes held, defined once there are three (R30). -/
def declaredLength (held : Bytes) : Nat := lengthOfPair (held.getD 1 0) (held.getD 2 0)

/-- What holds of the registers in each state of the accumulator, `held` being `buf[0..len-1]` (R30). That ACCUM has
received at least one raw byte is R22's own description of it. -/
def PhaseHolds (s : State) (held : Bytes) : Prop :=
  match s.rxState with
  | .empty => s.len = 0 ∧ s.escPending = false ∧ s.csum = 0
  | .accum => (s.len.toNat ≤ 3 ∨ s.len.toNat < declaredLength held + overhead) ∧ (s.len ≠ 0 ∨ s.escPending = true)
  | .complete =>
    s.len.toNat = declaredLength held + overhead ∧ s.escPending = false ∧ s.csum = 0xFF
  | .cksumErr => s.len = 0 ∧ s.escPending = false ∧ s.csum = 0

/-- The invariant of the block (R30), with what it rests on: the buffer is in canonical form and inside its offsets
(R40), `held` is `buf[0..len-1]` (R26), and `csum` is its running checksum (R25). -/
structure Inv (s : State) : Prop where
  bufCanonical : Memory.wf s.buf = true
  bufInside : ∀ c ∈ s.buf, c.1 < Config.bufCap
  lenInside : s.len.toNat ≤ Config.bufCap
  held : ∃ bytes, heldBytes s = some bytes ∧ s.csum = sum8 (bytes.drop 3) ∧ PhaseHolds s bytes

/-- The statuses an operation may return: the column "returned by" of R180. -/
def statusesOf : Instr → List Status
  | .rxStart => [.ok]
  | .rxPush _ => [.ok, .checksumMismatch, .busy]
  | .rxTake => [.ok, .checksumMismatch, .notReady]
  | .rxStatus => [.ok]
  | .escape _ => [.ok]
  | .unescape _ => [.ok]
  | .chkCompute _ => [.ok]
  | .chkValidate _ => [.ok, .checksumMismatch, .outOfBounds]
  | .lenFromPayload _ => [.ok, .lengthOverflow]
  | .lenFromRaw _ => [.ok, .outOfBounds]
  | .frameEncode _ => [.ok, .structurallyTooShort, .lengthOverflow]
  | .cmdEncode _ _ _ _ => [.ok, .noMatch, .illegalAction, .illegalValue]
  | .cmdDecode _ => [.ok, .noMatch]
  | .atEncode _ _ _ _ _ => [.ok, .noMatch, .illegalAction, .illegalValue, .lengthOverflow]
  | .ni => [.ok]
  | .sc => [.ok]
  | .bh => [.ok]

/-- Which of `OUT`, `Q` and `STAT` an operation produces when it returns `OK`: the column "outputs" of R64. -/
def outputsOf : Instr → Bool × Bool × Bool
  | .rxStart => (false, false, false)
  | .rxPush _ => (false, false, true)
  | .rxTake => (true, false, false)
  | .rxStatus => (false, false, true)
  | .escape _ => (true, false, false)
  | .unescape _ => (true, true, false)
  | .chkCompute _ => (false, true, false)
  | .chkValidate _ => (false, true, false)
  | .lenFromPayload _ => (true, false, false)
  | .lenFromRaw _ => (true, false, false)
  | .frameEncode _ => (true, false, false)
  | .cmdEncode _ _ _ _ => (true, false, false)
  | .cmdDecode _ => (false, true, false)
  | .atEncode _ _ _ _ _ => (true, false, false)
  | .ni => (false, true, false)
  | .sc => (false, true, false)
  | .bh => (false, true, false)

/-- The four operations of the accumulator (R120); every other one is pure (R20). -/
def isReceiveOp : Instr → Bool
  | .rxStart => true
  | .rxPush _ => true
  | .rxTake => true
  | .rxStatus => true
  | .escape _ => false
  | .unescape _ => false
  | .chkCompute _ => false
  | .chkValidate _ => false
  | .lenFromPayload _ => false
  | .lenFromRaw _ => false
  | .frameEncode _ => false
  | .cmdEncode _ _ _ _ => false
  | .cmdDecode _ => false
  | .atEncode _ _ _ _ _ => false
  | .ni => false
  | .sc => false
  | .bh => false

/-- The accumulator is ready to take a raw byte: no result is held (R121). -/
def acceptsPush (s : State) : Prop := s.rxState = .empty ∨ s.rxState = .accum

end Sys2Proof.Machine
end

