-- ==== Sys2Proof/Certificates/Slice0/Obligations.lean ====
section
/-! DEFINITION. The statements about the block, one for each entry of OBLIGATIONS.json. -/

open Sys2Proof Sys2Proof.Machine

/-! ### Reset -/

/-- R33: the reset value of every state element, and `STATUS`; no byte of `buf` is readable there (the bytes the model puts
in it are its choice, notes/assumptions 7, and nothing here rests on them), `RX_TAKE` being the
only operation that returns any (R26, R31). -/
def Obligations.ResetStateIsEmptyAndUnreadable : Prop :=
  State.reset.rxState = .empty ∧ State.reset.len = 0 ∧ State.reset.escPending = false ∧ State.reset.csum = 0 ∧
  statusWord State.reset = 0x00000000#32 ∧
  exec .rxTake State.reset = .next { State.reset with resp := some ⟨.notReady, some [], some 0, none⟩ }

/-- R200: a reset from any state gives the values of R33, `STATUS = 0`, and has the same effect on the state as
`RX_START`. That it is a function applied between operations is the model's choice (notes/assumptions 9). -/
def Obligations.HardwareResetActsAsRxStart : Prop :=
  ∀ s : State,
    (hardwareReset s).rxState = .empty ∧ (hardwareReset s).len = 0 ∧ (hardwareReset s).escPending = false ∧
    (hardwareReset s).csum = 0 ∧ statusWord (hardwareReset s) = 0x00000000#32 ∧
    exec .rxStart s = .next { hardwareReset s with resp := some ⟨.ok, none, none, none⟩ }

/-- The invariant holds at reset; what it adds to R30 is named in notes/assumptions 13. -/
def Obligations.ResetSatisfiesInvariant : Prop := Inv State.reset

/-! ### Issuing, decoding, encoding -/

/-- A step runs the instruction the next issued request decodes to, with that request taken from the list; the list is
the model's own field (notes/assumptions 3). -/
def Obligations.StepRunsTheDecodedInstruction : Prop :=
  ∀ (s : State) (r : Request) (rest : List Request) (i : Instr),
    s.issued = r :: rest → decode r = .ok i → step s = exec i { s with issued := rest }

/-- Issuing the encoding of a well-formed instruction runs that instruction. -/
def Obligations.IssuedEncodingRunsTheInstruction : Prop :=
  ∀ (s : State) (i : Instr) (rest : List Request),
    s.issued = encode i :: rest → wellFormed i = true → step s = exec i { s with issued := rest }

/-- The model's choice (notes/assumptions 3): with nothing issued the block does nothing. -/
def Obligations.NothingIssuedChangesNothing : Prop := ∀ s : State, s.issued = [] → step s = .next s

/-- R65: every reserved operation code returns `ILLEGAL_OP`, whatever the operand fields, changes no state and
produces no output. Two parts are the model's choice: that no output is the response with `OUT = []` and `Q = 0`, the
form R63 gives a status other than `OK` (notes/assumptions 4), and that the request is taken from the list of issued
ones (notes/assumptions 3). -/
def Obligations.ReservedOpCodeReturnsIllegalOp : Prop :=
  ∀ (s : State) (x : OpFields) (rest : List Request),
    s.issued = .op x :: rest →
    (x.op.toNat = 0x00 ∨ (0x05 ≤ x.op.toNat ∧ x.op.toNat ≤ 0x0F) ∨ (0x17 ≤ x.op.toNat ∧ x.op.toNat ≤ 0x1F) ∨
      0x23 ≤ x.op.toNat) →
    step s = .next { s with issued := rest, resp := some ⟨.illegalOp, some [], some 0, none⟩ }

/-- The model's choice (notes/assumptions 6): an operation that reads a `D` longer than 65539 bytes, or an `S` longer
than 65535 elements, is refused by name. -/
def Obligations.OverlongOperandIsRefused : Prop :=
  ∀ (s : State) (x : OpFields) (rest : List Request),
    s.issued = .op x :: rest →
    (0x10 ≤ x.op.toNat → x.op.toNat ≤ 0x16 → 65539 < x.d.length → step s = .refused .operandTooLong) ∧
    (x.op.toNat = 0x20 ∨ x.op.toNat = 0x22 → 65535 < x.s.length → step s = .refused .operandTooLong)

/-- Decoding the encoding of a well-formed instruction gives it back, every operand at every value its field admits. -/
def Obligations.DecodeOfEncodeIsTheInstruction : Prop :=
  ∀ i : Instr, wellFormed i = true → decode (encode i) = .ok i

/-- R62: an operation reads only the fields its rule names: two requests that agree on those are executed alike. -/
def Obligations.OperationReadsOnlyItsNamedFields : Prop :=
  ∀ (s : State) (x y : OpFields) (rest : List Request),
    x.op = y.op →
    (x.op = 0x02 → x.b = y.b) →
    (0x10 ≤ x.op.toNat ∧ x.op.toNat ≤ 0x16 → x.d = y.d) →
    (0x20 ≤ x.op.toNat ∧ x.op.toNat ≤ 0x22 → x.m = y.m) →
    (x.op = 0x20 ∨ x.op = 0x22 → x.a = y.a ∧ x.v = y.v ∧ x.s = y.s) →
    (x.op = 0x22 → x.f = y.f) →
    step { s with issued := .op x :: rest } = step { s with issued := .op y :: rest }

/-- Operations written out from R64 and R66 decode to the instructions they stand for. Two parts are the model's choice:
that the bare word 0x4E49 (R153) is the instruction `ni` (notes/assumptions 2), and that a table row's 8 bits are the
`OP` field alone, by which 0x23 gives none (notes/assumptions 1). -/
def Obligations.WrittenOutWordsDecode : Prop :=
  decode (.op { op := 0x02, b := 0x7E }) = .ok (.rxPush 0x7E) ∧
  decode (.op { op := 0x10, d := [0x7E, 0x11] }) = .ok (.escape [0x7E, 0x11]) ∧
  decode (.op { op := 0x16, d := [0x81] }) = .ok (.frameEncode [0x81]) ∧
  decode (.op { op := 0x20, m := 0x4248, a := 2, v := 0xFF }) = .ok (.cmdEncode 0x4248 .write 0xFF []) ∧
  decode (.op { op := 0x22, m := 0x4E49, a := 1, f := 0x01 }) = .ok (.atEncode 0x4E49 .read 0x01 0 []) ∧
  decode (.mnemonic 0x4E49) = .ok .ni ∧
  decodeTableWord 8 0x23 = none

/-! ### Byte stuffing -/

/-- R86 with R81: `ESCAPE` replaces each reserved byte by 0x7D and the byte XOR 0x20, and leaves all else. -/
def Obligations.EscapeReplacesReservedBytes : Prop :=
  ∀ (s : State) (d : Bytes),
    exec (.escape d) s = .next { s with resp := some ⟨.ok,
      some (d.flatMap fun b => if b ∈ ([0x7E, 0x7D, 0x11, 0x13] : Bytes) then [0x7D, b ^^^ 0x20] else [b]),
      none, none⟩ }

/-- R87 with R82: `UNESCAPE` runs the one-bit state machine from `p = 0` over `D`, first byte first; `OUT` is what it
output and `Q` the final `p`. -/
def Obligations.UnescapeRunsTheStateMachine : Prop :=
  ∀ (s : State) (d : Bytes) (p : Bool) (out : Bytes),
    d.foldl (fun (acc : Bool × Bytes) b =>
      if acc.1 then (false, acc.2 ++ [b ^^^ 0x20]) else if b = 0x7D then (true, acc.2) else (false, acc.2 ++ [b]))
      (false, []) = (p, out) →
    exec (.unescape d) s = .next { s with resp := some ⟨.ok, some out, some (if p then 1 else 0), none⟩ }

/-- R84: unescaping what `ESCAPE` returned gives the byte string back, with no escape byte pending. -/
def Obligations.UnescapeInvertsEscape : Prop :=
  ∀ (s : State) (d : Bytes), ∃ out,
    exec (.escape d) s = .next { s with resp := some ⟨.ok, some out, none, none⟩ } ∧
    exec (.unescape out) s = .next { s with resp := some ⟨.ok, some d, some 0, none⟩ }

/-- R85: the bytes of escaped output, its length, and that escaping twice is not escaping once. -/
def Obligations.EscapedOutputProperties : Prop :=
  (∀ d : Bytes,
    (∀ b ∈ esc d, b ≠ 0x7E ∧ b ≠ 0x11 ∧ b ≠ 0x13) ∧
    (∀ k, (esc d)[k]? = some (0x7D : Byte) → ∃ e ∈ ([0x5E, 0x5D, 0x31, 0x33] : Bytes), (esc d)[k + 1]? = some e) ∧
    (esc d).length = d.length + d.countP (fun b => b == 0x7E || b == 0x7D || b == 0x11 || b == 0x13)) ∧
  esc (esc [0x7E]) = [0x7D, 0x5D, 0x5E]

/-- R90: folding over `x ++ y` is folding over `x`, keeping the final state, and continuing over `y`. -/
def Obligations.ChunkBoundariesDoNotChangeUnescaping : Prop :=
  ∀ (p : Bool) (x y : Bytes),
    (unescFrom p (x ++ y)).1 = (unescFrom (unescFrom p x).1 y).1 ∧
    (unescFrom p (x ++ y)).2 = (unescFrom p x).2 ++ (unescFrom (unescFrom p x).1 y).2

/-! ### Checksum, length, envelope -/

/-- R101 with R100: `Q` is 0xFF less the low byte of the exact sum. -/
def Obligations.ChkComputeReturnsTheChecksum : Prop :=
  ∀ (s : State) (d : Bytes), ∃ q : BitVec 16,
    q.toNat = 0xFF - (d.map BitVec.toNat).sum % 256 ∧
    exec (.chkCompute d) s = .next { s with resp := some ⟨.ok, none, some q, none⟩ }

/-- R102: the three outcomes of `CHK_VALIDATE`, by the exact sum of the bytes from offset 3 on. -/
def Obligations.ChkValidateChecksTheSumFromOffsetThree : Prop :=
  ∀ (s : State) (d : Bytes),
    (d.length < 4 → exec (.chkValidate d) s = .next { s with resp := some ⟨.outOfBounds, some [], some 0, none⟩ }) ∧
    (4 ≤ d.length → ((d.drop 3).map BitVec.toNat).sum % 256 = 0xFF →
      exec (.chkValidate d) s = .next { s with resp := some ⟨.ok, none, some 1, none⟩ }) ∧
    (4 ≤ d.length → ((d.drop 3).map BitVec.toNat).sum % 256 ≠ 0xFF →
      exec (.chkValidate d) s = .next { s with resp := some ⟨.checksumMismatch, some [], some 0, none⟩ })

/-- R103: the frame of every payload validates, and a frame with exactly one byte changed from offset 3 on does not. -/
def Obligations.ValidationAcceptsFramesAndDetectsOneByteErrors : Prop :=
  ∀ (s : State) (p : Bytes), p.length ≤ 65535 →
    exec (.chkValidate (frame p)) s = .next { s with resp := some ⟨.ok, none, some 1, none⟩ } ∧
    ∀ (k : Nat) (old new : Byte), 3 ≤ k → (frame p)[k]? = some old → new ≠ old →
      exec (.chkValidate ((frame p).set k new)) s =
        .next { s with resp := some ⟨.checksumMismatch, some [], some 0, none⟩ }

/-- R104: the two bytes are the length, most significant first; over 65535 bytes there is no output. -/
def Obligations.LenFromPayloadIsBigEndian : Prop :=
  ∀ (s : State) (d : Bytes),
    (d.length ≤ 65535 → ∃ msb lsb : Byte, 256 * msb.toNat + lsb.toNat = d.length ∧
      exec (.lenFromPayload d) s = .next { s with resp := some ⟨.ok, some [msb, lsb], none, none⟩ }) ∧
    (65535 < d.length →
      exec (.lenFromPayload d) s = .next { s with resp := some ⟨.lengthOverflow, some [], some 0, none⟩ })

/-- R105: the bytes at offsets 1 and 2 as they stand; under 3 bytes there is no output. -/
def Obligations.LenFromRawReadsOffsetsOneAndTwo : Prop :=
  ∀ (s : State) (d : Bytes),
    (∀ msb lsb : Byte, d[1]? = some msb → d[2]? = some lsb →
      exec (.lenFromRaw d) s = .next { s with resp := some ⟨.ok, some [msb, lsb], none, none⟩ }) ∧
    (d.length < 3 →
      exec (.lenFromRaw d) s = .next { s with resp := some ⟨.outOfBounds, some [], some 0, none⟩ })

/-- R47: the layout of an unescaped frame, offset by offset. -/
def Obligations.FrameLayoutByOffset : Prop :=
  ∀ p : Bytes, p.length ≤ 65535 →
    (frame p).length = p.length + 4 ∧ (frame p)[0]? = some (0x7E : Byte) ∧
    (∃ msb lsb : Byte, (frame p)[1]? = some msb ∧ (frame p)[2]? = some lsb ∧
      msb.toNat = p.length / 256 ∧ lsb.toNat = p.length % 256) ∧
    (∀ k < p.length, (frame p)[3 + k]? = p[k]?) ∧
    (∃ c : Byte, (frame p)[p.length + 3]? = some c ∧ c.toNat = 0xFF - (p.map BitVec.toNat).sum % 256)

/-- R107 with R106: the delimiter as is, then the length, the payload and the checksum, escaped; an empty payload and
one over 65535 bytes give no output. -/
def Obligations.FrameEncodeBuildsTheWireBytes : Prop :=
  ∀ (s : State) (d : Bytes),
    (d = [] → exec (.frameEncode d) s = .next { s with resp := some ⟨.structurallyTooShort, some [], some 0, none⟩ }) ∧
    (65535 < d.length →
      exec (.frameEncode d) s = .next { s with resp := some ⟨.lengthOverflow, some [], some 0, none⟩ }) ∧
    (∀ msb lsb c : Byte, d ≠ [] → d.length ≤ 65535 → 256 * msb.toNat + lsb.toNat = d.length →
      c.toNat = 0xFF - (d.map BitVec.toNat).sum % 256 →
      exec (.frameEncode d) s =
        .next { s with resp := some ⟨.ok, some (0x7E :: esc ([msb, lsb] ++ d ++ [c])), none, none⟩ })

/-- R49: on the wire a frame occupies `N + 4` bytes and one more for each reserved byte at offsets 1 to `N + 3`, and
what follows the delimiter unescapes to the frame's bytes from offset 1 on. -/
def Obligations.WireBytesLengthAndContent : Prop :=
  ∀ (s : State) (d : Bytes), d ≠ [] → d.length ≤ 65535 → ∃ out : Bytes,
    exec (.frameEncode d) s = .next { s with resp := some ⟨.ok, some (0x7E :: out), none, none⟩ } ∧
    (0x7E :: out).length = d.length + 4 + ((frame d).drop 1).countP (fun b => b ∈ ([0x7E, 0x7D, 0x11, 0x13] : Bytes)) ∧
    unescFrom false out = (false, (frame d).drop 1)

/-! ### The accumulator -/

/-- R130: `RX_START` in every state. -/
def Obligations.RxStartEmptiesTheAccumulator : Prop :=
  ∀ s : State, exec .rxStart s = .next { s with
    rxState := .empty, len := 0, csum := 0, escPending := false, resp := some ⟨.ok, none, none, none⟩ }

/-- R131 with the layout of R27: `RX_STATUS` returns `STATUS` and changes nothing. -/
def Obligations.RxStatusReturnsTheStatusWord : Prop :=
  ∀ s : State, ∃ w : BitVec 32,
    exec .rxStatus s = .next { s with resp := some ⟨.ok, none, none, some w⟩ } ∧
    w.toNat = s.len.toNat * 256 + (if s.escPending then 4 else 0) +
      (match s.rxState with | .empty => 0 | .accum => 1 | .complete => 2 | .cksumErr => 3) ∧
    w.extractLsb' 3 5 = 0 ∧ w.extractLsb' 25 7 = 0

/-- A push while a result is held: `BUSY`, the byte not consumed, nothing changed. -/
def Obligations.PushWhileAResultIsHeldIsBusy : Prop :=
  ∀ (s : State) (b : Byte), s.rxState = .complete ∨ s.rxState = .cksumErr →
    exec (.rxPush b) s = .next { s with resp := some ⟨.busy, some [], some 0, some (statusWord s)⟩ }

/-- R123: an escape byte with none pending is held: `buf`, `len` and `csum` do not change. -/
def Obligations.PushedEscapeByteIsHeldNotCounted : Prop :=
  ∀ s : State, acceptsPush s → s.escPending = false → ∃ t : State,
    exec (.rxPush 0x7D) s = .next t ∧
    t = { s with rxState := .accum, escPending := true, resp := some ⟨.ok, none, none, some (statusWord t)⟩ }

/-- R124, R122: a push whose unescaped byte does not complete a frame appends it at offset `len`: one byte of `buf`, the
counter and the running checksum change, and every other byte of `buf` reads as before. -/
def Obligations.PushAppendsTheUnescapedByte : Prop :=
  ∀ (s : State) (b d : Byte), Inv s → acceptsPush s →
    ((s.escPending = true ∧ d = b ^^^ 0x20) ∨ (s.escPending = false ∧ b ≠ 0x7D ∧ d = b)) →
    (s.len.toNat < 3 ∨ ∃ msb lsb : Byte, Memory.read s.buf 1 = some msb ∧ Memory.read s.buf 2 = some lsb ∧
      s.len.toNat + 1 ≠ 256 * msb.toNat + lsb.toNat + 4) →
    ∃ t : State, exec (.rxPush b) s = .next t ∧
      t.rxState = .accum ∧ t.escPending = false ∧ t.len.toNat = s.len.toNat + 1 ∧
      t.csum = (if 3 ≤ s.len.toNat then s.csum + d else s.csum) ∧
      Memory.read t.buf s.len.toNat = some d ∧
      (∀ a, a ≠ s.len.toNat → Memory.read t.buf a = Memory.read s.buf a) ∧
      t.cmdTable = s.cmdTable ∧ t.issued = s.issued ∧
      t.resp = some ⟨.ok, none, none, some (statusWord t)⟩

/-- R126: the push whose byte makes `len = N + 4` holds the frame where the sum is 0xFF, and otherwise discards it at
once and reports the mismatch. -/
def Obligations.CompletingPushHoldsOrDiscardsTheFrame : Prop :=
  ∀ (s : State) (b d msb lsb : Byte), Inv s → acceptsPush s →
    ((s.escPending = true ∧ d = b ^^^ 0x20) ∨ (s.escPending = false ∧ b ≠ 0x7D ∧ d = b)) →
    3 ≤ s.len.toNat → Memory.read s.buf 1 = some msb → Memory.read s.buf 2 = some lsb →
    s.len.toNat + 1 = 256 * msb.toNat + lsb.toNat + 4 →
    ∃ t : State, exec (.rxPush b) s = .next t ∧ t.escPending = false ∧
      Memory.read t.buf s.len.toNat = some d ∧
      (∀ a, a ≠ s.len.toNat → Memory.read t.buf a = Memory.read s.buf a) ∧
      t.cmdTable = s.cmdTable ∧ t.issued = s.issued ∧
      (s.csum + d = 0xFF → t.rxState = .complete ∧ t.len.toNat = s.len.toNat + 1 ∧ t.csum = 0xFF ∧
        (∃ held, heldBytes s = some held ∧ heldBytes t = some (held ++ [d])) ∧
        t.resp = some ⟨.ok, none, none, some (statusWord t)⟩) ∧
      (s.csum + d ≠ 0xFF → t.rxState = .cksumErr ∧ t.len = 0 ∧ t.csum = 0 ∧
        t.resp = some ⟨.checksumMismatch, some [], some 0, some 0x00000003#32⟩)

/-- R129: `RX_TAKE` in each state: the frame held, byte by byte, and the accumulator emptied; the mismatch; or
`NOT_READY` and no change. -/
def Obligations.RxTakeReturnsTheResultAndEmpties : Prop :=
  ∀ s : State, Inv s →
    (s.rxState = .complete → ∃ out : Bytes, out.length = s.len.toNat ∧
      (∀ k < s.len.toNat, out[k]? = Memory.read s.buf k) ∧
      exec .rxTake s = .next { s with
        rxState := .empty, len := 0, csum := 0, escPending := false, resp := some ⟨.ok, some out, none, none⟩ }) ∧
    (s.rxState = .cksumErr → exec .rxTake s = .next { s with
      rxState := .empty, resp := some ⟨.checksumMismatch, some [], some 0, none⟩ }) ∧
    (s.rxState = .empty ∨ s.rxState = .accum → exec .rxTake s = .next { s with
      resp := some ⟨.notReady, some [], some 0, none⟩ })

/-- R121: the next state and the status of every operation of the accumulator in every state. -/
def Obligations.StateTransitionTable : Prop :=
  ∀ (s : State) (b : Byte), Inv s →
    (∃ t r, exec .rxStart s = .next t ∧ t.resp = some r ∧ t.rxState = .empty ∧ r.st = .ok) ∧
    (∃ r, exec .rxStatus s = .next { s with resp := some r } ∧ r.st = .ok) ∧
    (∃ t r, exec (.rxPush b) s = .next t ∧ t.resp = some r ∧
      match s.rxState with
      | .empty => t.rxState = .accum ∧ r.st = .ok
      | .accum => (t.rxState = .accum ∧ r.st = .ok) ∨ (t.rxState = .complete ∧ r.st = .ok) ∨
          (t.rxState = .cksumErr ∧ r.st = .checksumMismatch)
      | .complete => t.rxState = .complete ∧ r.st = .busy
      | .cksumErr => t.rxState = .cksumErr ∧ r.st = .busy) ∧
    (∃ t r, exec .rxTake s = .next t ∧ t.resp = some r ∧
      match s.rxState with
      | .empty => t.rxState = .empty ∧ r.st = .notReady
      | .accum => t.rxState = .accum ∧ r.st = .notReady
      | .complete => t.rxState = .empty ∧ r.st = .ok ∧ r.out = heldBytes s
      | .cksumErr => t.rxState = .empty ∧ r.st = .checksumMismatch)

/-- R186: the level `rx_done` is high exactly while a result is held; it is cleared by `RX_START` and `RX_TAKE`, and a
push that returns with a result has set it. -/
def Obligations.RxDoneLevelFollowsTheResult : Prop :=
  (∀ s : State, rxDone s = true ↔ s.rxState = .complete ∨ s.rxState = .cksumErr) ∧
  (∀ s : State, ∃ t, exec .rxStart s = .next t ∧ rxDone t = false) ∧
  (∀ s : State, Inv s → ∃ t, exec .rxTake s = .next t ∧ rxDone t = false) ∧
  (∀ (s t : State) (b : Byte), acceptsPush s → exec (.rxPush b) s = .next t →
    (rxDone t = true ↔ pushReportsResult t = true))

/-- The accumulator holds exactly the unescaped bytes of the raw bytes pushed, whatever the chunks they came in, as long
as they do not yet make a frame; the escape byte last received, and no other, is pending. So a read that never gets
`N + 4` unescaped bytes never completes. -/
def Obligations.AccumulatorHoldsWhatWasPushedUnescaped : Prop :=
  ∀ (s : State) (raw : Bytes), Inv s → s.rxState = .empty → raw ≠ [] →
    ((unescFrom false raw).2.length ≤ 3 ∨
      (unescFrom false raw).2.length < declaredLength (unescFrom false raw).2 + 4) →
    ∃ t, runOps (rxFeed raw) s = .next t ∧ t.rxState = .accum ∧
      heldBytes t = some (unescFrom false raw).2 ∧ t.escPending = (unescFrom false raw).1

/-- R108: pushing the wire bytes of a payload into an empty accumulator completes on the last byte and not before, with
the frame held; `RX_TAKE` then returns it. -/
def Obligations.PushingWireBytesDeliversTheFrame : Prop :=
  ∀ (s : State) (p : Bytes), Inv s → s.rxState = .empty → p.length ≤ 65535 →
    (∀ k < (wire p).length, ∃ t, runOps (rxFeed ((wire p).take k)) s = .next t ∧
      t.rxState ≠ .complete ∧ t.rxState ≠ .cksumErr) ∧
    ∃ t, runOps (rxFeed (wire p)) s = .next t ∧ t.rxState = .complete ∧ heldBytes t = some (frame p) ∧
      ∃ u, exec .rxTake t = .next u ∧ u.rxState = .empty ∧ u.resp = some ⟨.ok, some (frame p), none, none⟩

/-- `READ_FRAME` on the wire bytes of a payload returns its frame from every state of the block, and what follows the
frame in the stream is not consumed. That the transport is a list of bytes is the model's choice (notes/assumptions
10). -/
def Obligations.ReadFrameReturnsTheFrameAndLeavesTheRest : Prop :=
  ∀ (s : State) (p rest : Bytes), Inv s → p.length ≤ 65535 →
    ∃ u, readFrame (wire p ++ rest) s = some (u, rest) ∧ u.rxState = .empty ∧
      u.resp = some ⟨.ok, some (frame p), none, none⟩

/-! ### Commands -/

/-- R163: the mnemonic of the row at index `i` decodes to `Q = i`, the index a 16-bit number; a mnemonic no row has decodes
to `NO_MATCH` with `Q = 0`. -/
def Obligations.CmdDecodeFindsExactlyTheRows : Prop :=
  (∀ (s : State) (i : Nat) (r : CmdRow), s.cmdTable.rows[i]? = some r →
    ∃ q : BitVec 16, q.toNat = i ∧
      exec (.cmdDecode r.mnem) s = .next { s with resp := some ⟨.ok, none, some q, none⟩ }) ∧
  (∀ (s : State) (m : Mnemonic), (∀ r ∈ s.cmdTable.rows, r.mnem ≠ m) →
    exec (.cmdDecode m) s = .next { s with resp := some ⟨.noMatch, some [], some 0, none⟩ })

/-- The model's choice (notes/assumptions 2) over R153: each of the three fixed words is answered with the index of its
row, which every command table has with the kind and the bound R153 fixes. -/
def Obligations.FixedMnemonicWordsDecodeToTheirRows : Prop :=
  ∀ s : State,
    (∃ (i : Nat) (q : BitVec 16), q.toNat = i ∧ s.cmdTable.rows[i]? = some ⟨0x4E49, .str 20⟩ ∧
      exec .ni s = .next { s with resp := some ⟨.ok, none, some q, none⟩ }) ∧
    (∃ (i scMax : Nat) (q : BitVec 16), q.toNat = i ∧ 0x0001 ≤ scMax ∧ scMax ≤ 0xFFFF ∧
      s.cmdTable.rows[i]? = some ⟨0x5343, .num .two 0x0001 scMax⟩ ∧
      exec .sc s = .next { s with resp := some ⟨.ok, none, some q, none⟩ }) ∧
    (∃ (i bhMin : Nat) (q : BitVec 16), q.toNat = i ∧ bhMin ≤ 0x1E ∧
      s.cmdTable.rows[i]? = some ⟨0x4248, .num .one bhMin 0x1E⟩ ∧
      exec .bh s = .next { s with resp := some ⟨.ok, none, some q, none⟩ })

/-- R158: a `READ` of a row that has an action, and the `NONE` of a row that has none, encode to the mnemonic alone. -/
def Obligations.ReadAndQueryEncodeToTheMnemonicAlone : Prop :=
  ∀ (s : State) (r : CmdRow) (a : Action) (v : BitVec 32) (str : List Scalar), r ∈ s.cmdTable.rows →
    ((r.kind = .query ∧ a = .none) ∨ (r.kind ≠ .query ∧ a = .read)) →
    exec (.cmdEncode r.mnem a v str) s = .next { s with
      resp := some ⟨.ok, some [r.mnem.extractLsb' 8 8, r.mnem.extractLsb' 0 8], none, none⟩ }

/-- R155: a `WRITE` of a numeric row sends the clamped value in `W` bytes, the most significant first; a value wider than
the parameter is refused. -/
def Obligations.NumericWriteIsClampedBigEndian : Prop :=
  ∀ (s : State) (r : CmdRow) (w : ParamWidth) (min max : Nat) (v : BitVec 32) (str : List Scalar),
    r ∈ s.cmdTable.rows → r.kind = .num w min max →
    (v.toNat < 2 ^ (8 * w.bytes) → ∃ param : Bytes, param.length = w.bytes ∧
      param.foldl (fun n b => 256 * n + b.toNat) 0 =
        (if v.toNat < min then min else if max < v.toNat then max else v.toNat) ∧
      exec (.cmdEncode r.mnem .write v str) s = .next { s with
        resp := some ⟨.ok, some ([r.mnem.extractLsb' 8 8, r.mnem.extractLsb' 0 8] ++ param), none, none⟩ }) ∧
    (2 ^ (8 * w.bytes) ≤ v.toNat →
      exec (.cmdEncode r.mnem .write v str) s = .next { s with
        resp := some ⟨.illegalValue, some [], some 0, none⟩ })

/-- R156: a `WRITE` of a string row sends the UTF-8 bytes of the first `maxlen` characters; a surrogate or a value above
0x10FFFF anywhere in the string is refused. -/
def Obligations.StringWriteIsTruncatedUtf8 : Prop :=
  ∀ (s : State) (r : CmdRow) (maxlen : Nat) (v : BitVec 32) (str : List Scalar),
    r ∈ s.cmdTable.rows → r.kind = .str maxlen →
    ((∀ c ∈ str, c.toNat ≤ 0x10FFFF ∧ (c.toNat < 0xD800 ∨ 0xDFFF < c.toNat)) →
      exec (.cmdEncode r.mnem .write v str) s = .next { s with resp := some ⟨.ok,
        some ([r.mnem.extractLsb' 8 8, r.mnem.extractLsb' 0 8] ++ (str.take maxlen).flatMap utf8), none, none⟩ }) ∧
    ((∃ c ∈ str, 0x10FFFF < c.toNat ∨ (0xD800 ≤ c.toNat ∧ c.toNat ≤ 0xDFFF)) →
      exec (.cmdEncode r.mnem .write v str) s = .next { s with
        resp := some ⟨.illegalValue, some [], some 0, none⟩ })

/-- R157: the bytes of `UTF8(c)` for every Unicode scalar value. -/
def Obligations.Utf8BytesOfEveryScalarValue : Prop :=
  ∀ c : Scalar, c.toNat ≤ 0x10FFFF → (c.toNat < 0xD800 ∨ 0xDFFF < c.toNat) →
    (utf8 c).map BitVec.toNat =
      if c.toNat ≤ 0x7F then [c.toNat]
      else if c.toNat ≤ 0x7FF then [0xC0 + c.toNat / 2 ^ 6, 0x80 + c.toNat % 2 ^ 6]
      else if c.toNat ≤ 0xFFFF then
        [0xE0 + c.toNat / 2 ^ 12, 0x80 + c.toNat / 2 ^ 6 % 2 ^ 6, 0x80 + c.toNat % 2 ^ 6]
      else [0xF0 + c.toNat / 2 ^ 18, 0x80 + c.toNat / 2 ^ 12 % 2 ^ 6, 0x80 + c.toNat / 2 ^ 6 % 2 ^ 6,
        0x80 + c.toNat % 2 ^ 6]

/-- R161 with the order of R183: an action not legal for the row's kind is refused whatever the value and the string,
and an unknown mnemonic is reported before the action is looked at, by both encoding operations. -/
def Obligations.IllegalActionsAndUnknownMnemonics : Prop :=
  (∀ (s : State) (r : CmdRow) (a : Action) (f : Byte) (v : BitVec 32) (str : List Scalar), r ∈ s.cmdTable.rows →
    ¬ ((r.kind = .query ∧ a = .none) ∨ (r.kind ≠ .query ∧ (a = .read ∨ a = .write))) →
    exec (.cmdEncode r.mnem a v str) s = .next { s with resp := some ⟨.illegalAction, some [], some 0, none⟩ } ∧
    exec (.atEncode r.mnem a f v str) s = .next { s with resp := some ⟨.illegalAction, some [], some 0, none⟩ }) ∧
  (∀ (s : State) (m : Mnemonic) (a : Action) (f : Byte) (v : BitVec 32) (str : List Scalar),
    (∀ r ∈ s.cmdTable.rows, r.mnem ≠ m) →
    exec (.cmdEncode m a v str) s = .next { s with resp := some ⟨.noMatch, some [], some 0, none⟩ } ∧
    exec (.atEncode m a f v str) s = .next { s with resp := some ⟨.noMatch, some [], some 0, none⟩ })

/-- The examples of R160, for every command table: `NI` read, `SC` written with 0x0000, `BH` written with 0xFF. -/
def Obligations.FixedRowExamplesOfTheEncoder : Prop :=
  ∀ (s : State) (str : List Scalar) (v : BitVec 32),
    exec (.cmdEncode 0x4E49 .read v str) s = .next { s with resp := some ⟨.ok, some [0x4E, 0x49], none, none⟩ } ∧
    exec (.cmdEncode 0x5343 .write 0x0000 str) s =
      .next { s with resp := some ⟨.ok, some [0x53, 0x43, 0x00, 0x01], none, none⟩ } ∧
    exec (.cmdEncode 0x4248 .write 0xFF str) s =
      .next { s with resp := some ⟨.ok, some [0x42, 0x48, 0x1E], none, none⟩ }

/-- R162: whenever the encoder returns `OK`, its first two bytes are the mnemonic. -/
def Obligations.EveryEncodingStartsWithItsMnemonic : Prop :=
  ∀ (s t : State) (m : Mnemonic) (a : Action) (v : BitVec 32) (str : List Scalar) (r : Response),
    exec (.cmdEncode m a v str) s = .next t → t.resp = some r → r.st = .ok →
    ∃ param : Bytes, r.out = some ([m.extractLsb' 8 8, m.extractLsb' 0 8] ++ param)

/-- R166: `AT_ENCODE` returns the wire bytes of frame type, frame id and what `CMD_ENCODE` returns on the same operands,
or `LENGTH_OVERFLOW` where that payload passes 65535 bytes, or the status `CMD_ENCODE` returns. -/
def Obligations.AtEncodeWrapsTheEncodedCommand : Prop :=
  ∀ (s : State) (m : Mnemonic) (a : Action) (f : Byte) (v : BitVec 32) (str : List Scalar), ∃ rc : Response,
    exec (.cmdEncode m a v str) s = .next { s with resp := some rc } ∧
    (rc.st ≠ .ok → exec (.atEncode m a f v str) s = .next { s with resp := some ⟨rc.st, some [], some 0, none⟩ }) ∧
    (∀ c : Bytes, rc = ⟨.ok, some c, none, none⟩ →
      (c.length + 2 ≤ 65535 → exec (.atEncode m a f v str) s = .next { s with
        resp := some ⟨.ok, some (wire ([0x08, f] ++ c)), none, none⟩ }) ∧
      (65535 < c.length + 2 → exec (.atEncode m a f v str) s = .next { s with
        resp := some ⟨.lengthOverflow, some [], some 0, none⟩ }))

/-- R167: the request for a `READ` of a row that has an action, or the `NONE` of one that has none, is frame type 0x08,
frame id and mnemonic, framed. -/
def Obligations.AtRequestOfAReadIsTypeIdMnemonic : Prop :=
  ∀ (s : State) (r : CmdRow) (a : Action) (f : Byte) (v : BitVec 32) (str : List Scalar), r ∈ s.cmdTable.rows →
    ((r.kind = .query ∧ a = .none) ∨ (r.kind ≠ .query ∧ a = .read)) →
    exec (.atEncode r.mnem a f v str) s = .next { s with resp := some ⟨.ok,
      some (wire [0x08, f, r.mnem.extractLsb' 8 8, r.mnem.extractLsb' 0 8]), none, none⟩ }

/-! ### The whole block -/

/-- R30, with R25, R26 and R40: from every state that satisfies the invariant, a step that gives a next state gives one
that satisfies it. What the invariant adds to R30 is named in notes/assumptions 13. -/
def Obligations.StepKeepsTheInvariant : Prop := ∀ s t : State, Inv s → step s = .next t → Inv t

/-- R14: from a state that satisfies the invariant every operation completes: it returns a status, and the invariant
holds after it. No instruction traps, halts or corrupts state. -/
def Obligations.EveryOperationReturnsAStatus : Prop :=
  ∀ (s : State) (i : Instr), Inv s → ∃ t r, exec i s = .next t ∧ t.resp = some r ∧ Inv t

/-- From a state that satisfies the invariant no step faults, and a step is refused only for an operand that no field
can carry (notes/assumptions 6). -/
def Obligations.NoStepFaults : Prop :=
  ∀ s : State, Inv s → (∀ e, step s ≠ .fault e) ∧ (∀ e, step s = .refused e → e = .operandTooLong)

/-- R20: every operation that is not one of the four receive operations leaves every state element as it was, and what it
returns is a function of its operands and the command table alone. -/
def Obligations.PureOperationsReadAndWriteNoState : Prop :=
  ∀ (i : Instr) (s s' : State), isReceiveOp i = false → s.cmdTable = s'.cmdTable →
    ∃ r, exec i s = .next { s with resp := some r } ∧ exec i s' = .next { s' with resp := some r }

/-- R184: a status other than `OK` comes with no state change, but for the two the rule names. -/
def Obligations.ErrorsChangeOnlyWhatTheirRuleNames : Prop :=
  ∀ (i : Instr) (s t : State) (r : Response), exec i s = .next t → t.resp = some r → r.st ≠ .ok →
    t = { s with resp := some r } ∨
    (∃ b, i = .rxPush b ∧ r.st = .checksumMismatch ∧ t.rxState = .cksumErr ∧ t.len = 0 ∧ t.csum = 0 ∧
      t.escPending = false ∧ t.cmdTable = s.cmdTable ∧ t.issued = s.issued) ∨
    (i = .rxTake ∧ r.st = .checksumMismatch ∧ s.rxState = .cksumErr ∧
      t = { s with rxState := .empty, resp := some r })

/-- R28: no operation reads what an earlier one returned. -/
def Obligations.NoOperationReadsAnEarlierStatus : Prop :=
  ∀ (i : Instr) (s : State) (earlier : Option Response), exec i { s with resp := earlier } = exec i s

/-- R32: no step changes the command table. -/
def Obligations.CommandTableNeverChanges : Prop := ∀ s t : State, step s = .next t → t.cmdTable = s.cmdTable

/-- R180: an operation returns only the statuses listed for it; the eleven statuses and their 4-bit codes 0 to 10, so
that 11 to 15 are never returned. R180 lists the fourteen operations: that `ni`, `sc` and `bh` return `OK` alone is the
model's choice (notes/assumptions 2), over the rows every table has. -/
def Obligations.StatusesAreThoseListedForTheOperation : Prop :=
  (∀ (i : Instr) (s t : State) (r : Response), exec i s = .next t → t.resp = some r → r.st ∈ statusesOf i) ∧
  ([.ok, .checksumMismatch, .structurallyTooShort, .noMatch, .lengthOverflow, .outOfBounds, .illegalOp, .illegalAction,
    .notReady, .busy, .illegalValue] : List Status).map statusCode = [0, 1, 2, 3, 4, 5, 6, 7, 8, 9, 10] ∧
  (∀ st : Status, (statusCode st).toNat ≤ 10)

/-- R63 with the outputs of R64: on `OK` an operation produces the output fields listed for it; with another status
`OUT` is empty and `Q` is 0. That a field not produced is absent is the model's choice (notes/assumptions 4), and so is
that `ni`, `sc` and `bh`, which R64 does not list, produce `Q` (notes/assumptions 2). -/
def Obligations.OutputsAreThoseListedForTheOperation : Prop :=
  ∀ (i : Instr) (s t : State) (r : Response), exec i s = .next t → t.resp = some r →
    (r.st = .ok → (r.out.isSome, r.q.isSome, r.stat.isSome) = outputsOf i) ∧
    (r.st ≠ .ok → r.out = some [] ∧ r.q = some 0)

/-- Only `RX_PUSH` writes the receive buffer, and only the byte at offset `len`: every other byte reads as before. -/
def Obligations.OnlyAPushWritesOneByteOfTheBuffer : Prop :=
  ∀ (i : Instr) (s t : State), exec i s = .next t →
    ((∀ b, i ≠ .rxPush b) → ∀ a, Memory.read t.buf a = Memory.read s.buf a) ∧
    (∀ b, i = .rxPush b → ∀ a, a ≠ s.len.toNat → Memory.read t.buf a = Memory.read s.buf a)

/-- R26, U8: the bytes at offsets `len` and above are not read. With other bytes there, every operation returns the same,
changes the rest of the state alike, and again leaves two buffers that agree below the new `len`. So the bytes the model
puts in the buffer at reset (its choice, notes/assumptions 7) are never seen. -/
def Obligations.BytesAtLenAndAboveAreNeverRead : Prop :=
  ∀ (i : Instr) (s : State) (other : Memory), Inv s → Inv { s with buf := other } →
    (∀ a < s.len.toNat, Memory.read other a = Memory.read s.buf a) →
    ∃ (t : State) (other' : Memory),
      exec i s = .next t ∧ exec i { s with buf := other } = .next { t with buf := other' } ∧
      (∀ a < t.len.toNat, Memory.read other' a = Memory.read t.buf a)

/-- One accepted push keeps the buffer the unescaped history of the read: where the bytes held are the unescaped form of
the raw bytes pushed so far and `esc_pending` the state it ended in, they are so after one more, but for a frame that
failed its checksum, which leaves nothing held. -/
def Obligations.PushKeepsTheUnescapedHistory : Prop :=
  ∀ (s : State) (raw : Bytes) (b : Byte), Inv s → acceptsPush s →
    heldBytes s = some (unescFrom false raw).2 → s.escPending = (unescFrom false raw).1 →
    ∃ t, exec (.rxPush b) s = .next t ∧ t.escPending = (unescFrom false (raw ++ [b])).1 ∧
      (t.rxState ≠ .cksumErr → heldBytes t = some (unescFrom false (raw ++ [b])).2) ∧
      (t.rxState = .cksumErr → heldBytes t = some [])

/-- R40: the buffer has the offsets 0 to 65538, each holding one byte, and no other offset; what is written at one of them
is read there, and every other offset reads as before. -/
def Obligations.EveryOffsetOfTheBufferHoldsOneByte : Prop :=
  ∀ m : Memory,
    (∀ a < 65539, ∃ b, Memory.read m a = some b) ∧ (∀ a, 65539 ≤ a → Memory.read m a = none) ∧
    (∀ (a : Nat) (b : Byte), Memory.wf m = true → a < 65539 →
      Memory.wf (Memory.write m a b) = true ∧ Memory.read (Memory.write m a b) a = some b ∧
      ∀ a', a' ≠ a → Memory.read (Memory.write m a b) a' = Memory.read m a')
end

