-- ==== Sys2Proof/Laws/Catalog.lean ====
section
/-! SUPPORT. What the lookup primitive answers (43_command_catalog.md rule R154) and what every command table holds
(R151, R153). -/

namespace Sys2Proof.Machine

/-- The row found has the mnemonic asked for, at the index given. -/
theorem lookupFrom_some (rows : List CmdRow) (k i : Nat) (m : Mnemonic) (r : CmdRow)
    (h : lookupFrom rows k m = some (i, r)) : r.mnem = m ∧ k ≤ i ∧ rows[i - k]? = some r := by
  induction rows generalizing k with
  | nil => simp [lookupFrom] at h
  | cons c rows ih =>
    simp only [lookupFrom] at h
    split at h
    · next hm => simp only [Option.some.injEq, Prod.mk.injEq] at h; obtain ⟨rfl, rfl⟩ := h; simp [hm]
    · obtain ⟨hm, hk, hr⟩ := ih (k + 1) h
      refine ⟨hm, by omega, ?_⟩
      rw [show i - k = (i - (k + 1)) + 1 by omega]
      simpa using hr

/-- Nothing is found exactly where no row has the mnemonic. -/
theorem lookupFrom_none (rows : List CmdRow) (k : Nat) (m : Mnemonic) :
    lookupFrom rows k m = none ↔ ∀ r ∈ rows, r.mnem ≠ m := by
  induction rows generalizing k with
  | nil => simp [lookupFrom]
  | cons c rows ih =>
    simp only [lookupFrom]
    split
    · next hm => simp [hm]
    · next hm => simp [ih, hm]

/-- With unique mnemonics, the row at an index is found by its own mnemonic. -/
theorem lookupFrom_row (rows : List CmdRow) (k i : Nat) (r : CmdRow) (hu : (rows.map CmdRow.mnem).Nodup)
    (h : rows[i]? = some r) : lookupFrom rows k r.mnem = some (k + i, r) := by
  induction rows generalizing k i with
  | nil => simp at h
  | cons c rows ih =>
    simp only [List.map_cons, List.nodup_cons] at hu
    cases i with
    | zero => simp only [List.getElem?_cons_zero, Option.some.injEq] at h; simp [lookupFrom, h]
    | succ i =>
      simp only [List.getElem?_cons_succ] at h
      have hmem : r.mnem ∈ rows.map CmdRow.mnem := List.mem_map_of_mem (List.mem_of_getElem? h)
      have hne : c.mnem ≠ r.mnem := fun e => hu.1 (e ▸ hmem)
      simp [lookupFrom, hne, ih (k + 1) i hu.2 h, Nat.add_comm, Nat.add_left_comm]

/-- The parts of R151, for every table. -/
theorem CmdTable.invariants (t : CmdTable) :
    (t.rows.map CmdRow.mnem).Nodup ∧ (∀ r ∈ t.rows, asciiMnemonic r.mnem = true ∧ rangeOk r.kind = true) ∧
      rowNI ∈ t.rows ∧ (∃ r ∈ t.rows, isRowSC r = true) ∧ (∃ r ∈ t.rows, isRowBH r = true) := by
  have h := t.ok
  simp only [tableOk, Bool.and_eq_true, decide_eq_true_eq, List.all_eq_true, List.any_eq_true, beq_iff_eq] at h
  obtain ⟨⟨hu, ha⟩, ⟨hn, hs⟩, hb⟩ := h
  refine ⟨hu, ha, ?_, hs, hb⟩
  obtain ⟨r, hr, rfl⟩ := hn
  exact hr

/-- Looking up the mnemonic of the row at an index gives that index and row (R151, R154). -/
theorem lookup_row (t : CmdTable) (i : Nat) (r : CmdRow) (h : t.rows[i]? = some r) : lookup t r.mnem = some (i, r) := by
  simpa [lookup] using lookupFrom_row t.rows 0 i r t.invariants.1 h

/-- Looking up the mnemonic of a row of the table gives that row (R151, R154). -/
theorem lookup_mem (t : CmdTable) (r : CmdRow) (h : r ∈ t.rows) : ∃ i, lookup t r.mnem = some (i, r) := by
  obtain ⟨i, hi⟩ := List.getElem?_of_mem h
  exact ⟨i, lookup_row t i r hi⟩

theorem lookup_none (t : CmdTable) (m : Mnemonic) : lookup t m = none ↔ ∀ r ∈ t.rows, r.mnem ≠ m :=
  lookupFrom_none t.rows 0 m

theorem lookup_some (t : CmdTable) (m : Mnemonic) (i : Nat) (r : CmdRow) (h : lookup t m = some (i, r)) :
    r.mnem = m ∧ t.rows[i]? = some r := by
  have := lookupFrom_some t.rows 0 i m r h
  simpa using ⟨this.1, this.2.2⟩

/-- The rows of `SC` and `BH` with the bounds each table gives (R153). -/
theorem isRowSC_eq (r : CmdRow) (h : isRowSC r = true) : ∃ scMax, r = rowSC scMax := by
  unfold isRowSC at h
  split at h
  · next max _ => exact ⟨max, by simpa using h⟩
  · simp at h
  · simp at h

theorem isRowBH_eq (r : CmdRow) (h : isRowBH r = true) : ∃ bhMin, r = rowBH bhMin := by
  unfold isRowBH at h
  split at h
  · next min _ _ => exact ⟨min, by simpa using h⟩
  · simp at h
  · simp at h

end Sys2Proof.Machine
end

