-- ==== Sys2Proof/Laws/Codec.lean ====
section
/-! SUPPORT. The small laws of the byte-stuffing codec, the checksum and the frame. -/

namespace Sys2Proof.Machine

@[simp] theorem esc_nil : esc [] = [] := rfl

@[simp] theorem esc_cons (b : Byte) (s : Bytes) : esc (b :: s) = escapeByte b ++ esc s := rfl

@[simp] theorem esc_append (s t : Bytes) : esc (s ++ t) = esc s ++ esc t := by simp [esc]

@[simp] theorem unescFrom_nil (p : Bool) : unescFrom p [] = (p, []) := rfl

theorem unescFrom_cons (p : Bool) (b : Byte) (s : Bytes) :
    unescFrom p (b :: s) =
      ((unescFrom (unescStep p b).1 s).1, (unescStep p b).2.toList ++ (unescFrom (unescStep p b).1 s).2) := rfl

@[simp] theorem unescStep_pending (b : Byte) : unescStep true b = (false, some (b ^^^ escMask)) := rfl

@[simp] theorem unescStep_escape : unescStep false escByte = (true, none) := rfl

theorem unescStep_plain (b : Byte) (h : b ≠ escByte) : unescStep false b = (false, some b) := by
  simp [unescStep, h]

/-- The escape bit after a byte was output is clear, and after none was output it is set (R82). -/
theorem unescStep_fst (p : Bool) (b : Byte) : (unescStep p b).1 = (unescStep p b).2.isNone := by
  unfold unescStep; split
  · rfl
  · split <;> rfl

/-- An escaped byte is itself, or the escape byte and its other form (R81). -/
theorem escapeByte_cases (b : Byte) :
    (reserved b = true ∧ escapeByte b = [escByte, b ^^^ escMask]) ∨ (reserved b = false ∧ escapeByte b = [b]) := by
  unfold escapeByte; split <;> simp_all

/-- A byte outside the reserved set is not the escape byte (R80). -/
theorem ne_escByte_of_not_reserved (b : Byte) (h : reserved b = false) : b ≠ escByte := by
  rintro rfl; exact absurd h (by decide)

@[simp] theorem sum8_nil : sum8 [] = 0 := rfl

@[simp] theorem sum8_cons (b : Byte) (p : Bytes) : sum8 (b :: p) = b + sum8 p := rfl

@[simp] theorem sum8_append (p q : Bytes) : sum8 (p ++ q) = sum8 p + sum8 q := by
  induction p with
  | nil => simp
  | cons b p ih => simp [ih, BitVec.add_assoc]

/-- The 8-bit adder that wraps gives the low byte of the exact sum (R100). -/
theorem sum8_toNat (p : Bytes) : (sum8 p).toNat = (p.map BitVec.toNat).sum % 256 := by
  induction p with
  | nil => rfl
  | cons b p ih => simp [BitVec.toNat_add, ih]

/-- A payload's sum and its checksum add up to 0xFF (R100). -/
theorem sum8_add_chk (p : Bytes) : sum8 p + chk p = 0xFF := by simp [chk]

@[simp] theorem lengthPair_length (n : Nat) : (lengthPair n).length = 2 := rfl

/-- The two length bytes of a frame. -/
theorem lengthPair_eq (n : Nat) : lengthPair n = [BitVec.ofNat 8 (n / 256), BitVec.ofNat 8 n] := by
  simp [lengthPair, beBytes]

/-- Splitting a 16-bit length big-endian and reading it back gives it again (R70). -/
theorem lengthOfPair_lengthPair (n : Nat) (h : n ≤ Config.maxPayload) :
    lengthOfPair (BitVec.ofNat 8 (n / 256)) (BitVec.ofNat 8 n) = n := by
  simp only [lengthOfPair, BitVec.toNat_ofNat, Config.maxPayload] at *
  omega

@[simp] theorem frame_length (p : Bytes) : (frame p).length = p.length + 4 := by simp [frame]; omega

end Sys2Proof.Machine
end

