-- ==== Sys2Proof/Laws/Encoding.lean ====
section
/-! SUPPORT. The operation map read in both directions, and what the operand checks of the decoder answer. -/

namespace Sys2Proof

@[simp] theorem decodeOp_opCode (n : OpName) : decodeOp (opCode n) = some n := by cases n <;> decide

/-- The operation map names an operation by its one code. -/
theorem opCode_of_decodeOp (code : Byte) (n : OpName) (h : decodeOp code = some n) : code = opCode n := by
  simp only [decodeOp, Option.map_eq_some_iff] at h
  obtain ⟨row, hrow, rfl⟩ := h
  have hcode := List.find?_some hrow
  have hmem := List.mem_of_find?_eq_some hrow
  have hall : ∀ x ∈ opMap, x.1 = opCode x.2 := by decide
  simp only [beq_iff_eq] at hcode
  exact hcode ▸ hall row hmem

@[simp] theorem decodeAction_actionCode (a : Action) : decodeAction (actionCode a) = a := by cases a <;> decide

@[simp] theorem actionCode_decodeAction (c : BitVec 2) : actionCode (decodeAction c) = c := by
  revert c; decide

theorem withData_eq_ok (d : Bytes) (i j : Instr) : withData d i = .ok j ↔ dataFits d = true ∧ i = j := by
  unfold withData; split <;> simp_all

theorem withString_eq_ok (str : List Scalar) (i j : Instr) :
    withString str i = .ok j ↔ stringFits str = true ∧ i = j := by
  unfold withString; split <;> simp_all

end Sys2Proof
end

