-- ==== Sys2Proof/Laws/State.lean ====
section
/-! SUPPORT. One lemma per field per named update of the state, so that no proof unfolds a record update. -/

namespace Sys2Proof.Machine

@[simp] theorem respond_rxState (s : State) (r : Response) : (respond s r).rxState = s.rxState := rfl
@[simp] theorem respond_len (s : State) (r : Response) : (respond s r).len = s.len := rfl
@[simp] theorem respond_escPending (s : State) (r : Response) : (respond s r).escPending = s.escPending := rfl
@[simp] theorem respond_csum (s : State) (r : Response) : (respond s r).csum = s.csum := rfl
@[simp] theorem respond_buf (s : State) (r : Response) : (respond s r).buf = s.buf := rfl
@[simp] theorem respond_cmdTable (s : State) (r : Response) : (respond s r).cmdTable = s.cmdTable := rfl
@[simp] theorem respond_issued (s : State) (r : Response) : (respond s r).issued = s.issued := rfl
@[simp] theorem respond_resp (s : State) (r : Response) : (respond s r).resp = some r := rfl

@[simp] theorem clearAccumulator_rxState (s : State) : (clearAccumulator s).rxState = .empty := rfl
@[simp] theorem clearAccumulator_len (s : State) : (clearAccumulator s).len = 0 := rfl
@[simp] theorem clearAccumulator_escPending (s : State) : (clearAccumulator s).escPending = false := rfl
@[simp] theorem clearAccumulator_csum (s : State) : (clearAccumulator s).csum = 0 := rfl
@[simp] theorem clearAccumulator_buf (s : State) : (clearAccumulator s).buf = s.buf := rfl
@[simp] theorem clearAccumulator_cmdTable (s : State) : (clearAccumulator s).cmdTable = s.cmdTable := rfl
@[simp] theorem clearAccumulator_issued (s : State) : (clearAccumulator s).issued = s.issued := rfl
@[simp] theorem clearAccumulator_resp (s : State) : (clearAccumulator s).resp = s.resp := rfl

@[simp] theorem hardwareReset_rxState (s : State) : (hardwareReset s).rxState = .empty := rfl
@[simp] theorem hardwareReset_len (s : State) : (hardwareReset s).len = 0 := rfl
@[simp] theorem hardwareReset_escPending (s : State) : (hardwareReset s).escPending = false := rfl
@[simp] theorem hardwareReset_csum (s : State) : (hardwareReset s).csum = 0 := rfl
@[simp] theorem hardwareReset_buf (s : State) : (hardwareReset s).buf = s.buf := rfl
@[simp] theorem hardwareReset_cmdTable (s : State) : (hardwareReset s).cmdTable = s.cmdTable := rfl
@[simp] theorem hardwareReset_issued (s : State) : (hardwareReset s).issued = s.issued := rfl
@[simp] theorem hardwareReset_resp (s : State) : (hardwareReset s).resp = s.resp := rfl

@[simp] theorem acceptRaw_rxState (s : State) (p : Bool) : (acceptRaw s p).rxState = .accum := rfl
@[simp] theorem acceptRaw_len (s : State) (p : Bool) : (acceptRaw s p).len = s.len := rfl
@[simp] theorem acceptRaw_escPending (s : State) (p : Bool) : (acceptRaw s p).escPending = p := rfl
@[simp] theorem acceptRaw_csum (s : State) (p : Bool) : (acceptRaw s p).csum = s.csum := rfl
@[simp] theorem acceptRaw_buf (s : State) (p : Bool) : (acceptRaw s p).buf = s.buf := rfl
@[simp] theorem acceptRaw_cmdTable (s : State) (p : Bool) : (acceptRaw s p).cmdTable = s.cmdTable := rfl
@[simp] theorem acceptRaw_issued (s : State) (p : Bool) : (acceptRaw s p).issued = s.issued := rfl
@[simp] theorem acceptRaw_resp (s : State) (p : Bool) : (acceptRaw s p).resp = s.resp := rfl

@[simp] theorem appended_rxState (s : State) (d : Byte) : (appended s d).rxState = s.rxState := rfl
@[simp] theorem appended_len (s : State) (d : Byte) : (appended s d).len = s.len + 1 := rfl
@[simp] theorem appended_escPending (s : State) (d : Byte) : (appended s d).escPending = s.escPending := rfl
@[simp] theorem appended_csum (s : State) (d : Byte) : (appended s d).csum = if 3 ≤ s.len.toNat then s.csum + d else s.csum := rfl
@[simp] theorem appended_buf (s : State) (d : Byte) : (appended s d).buf = Memory.write s.buf s.len.toNat d := rfl
@[simp] theorem appended_cmdTable (s : State) (d : Byte) : (appended s d).cmdTable = s.cmdTable := rfl
@[simp] theorem appended_issued (s : State) (d : Byte) : (appended s d).issued = s.issued := rfl
@[simp] theorem appended_resp (s : State) (d : Byte) : (appended s d).resp = s.resp := rfl

@[simp] theorem holdFrame_rxState (s : State) : (holdFrame s).rxState = .complete := rfl
@[simp] theorem holdFrame_len (s : State) : (holdFrame s).len = s.len := rfl
@[simp] theorem holdFrame_escPending (s : State) : (holdFrame s).escPending = s.escPending := rfl
@[simp] theorem holdFrame_csum (s : State) : (holdFrame s).csum = s.csum := rfl
@[simp] theorem holdFrame_buf (s : State) : (holdFrame s).buf = s.buf := rfl
@[simp] theorem holdFrame_cmdTable (s : State) : (holdFrame s).cmdTable = s.cmdTable := rfl
@[simp] theorem holdFrame_issued (s : State) : (holdFrame s).issued = s.issued := rfl
@[simp] theorem holdFrame_resp (s : State) : (holdFrame s).resp = s.resp := rfl

@[simp] theorem discardFrame_rxState (s : State) : (discardFrame s).rxState = .cksumErr := rfl
@[simp] theorem discardFrame_len (s : State) : (discardFrame s).len = 0 := rfl
@[simp] theorem discardFrame_escPending (s : State) : (discardFrame s).escPending = s.escPending := rfl
@[simp] theorem discardFrame_csum (s : State) : (discardFrame s).csum = 0 := rfl
@[simp] theorem discardFrame_buf (s : State) : (discardFrame s).buf = s.buf := rfl
@[simp] theorem discardFrame_cmdTable (s : State) : (discardFrame s).cmdTable = s.cmdTable := rfl
@[simp] theorem discardFrame_issued (s : State) : (discardFrame s).issued = s.issued := rfl
@[simp] theorem discardFrame_resp (s : State) : (discardFrame s).resp = s.resp := rfl

@[simp] theorem issueNext_rxState (s : State) (r : Request) : (issueNext s r).rxState = s.rxState := rfl
@[simp] theorem issueNext_len (s : State) (r : Request) : (issueNext s r).len = s.len := rfl
@[simp] theorem issueNext_escPending (s : State) (r : Request) : (issueNext s r).escPending = s.escPending := rfl
@[simp] theorem issueNext_csum (s : State) (r : Request) : (issueNext s r).csum = s.csum := rfl
@[simp] theorem issueNext_buf (s : State) (r : Request) : (issueNext s r).buf = s.buf := rfl
@[simp] theorem issueNext_cmdTable (s : State) (r : Request) : (issueNext s r).cmdTable = s.cmdTable := rfl
@[simp] theorem issueNext_issued (s : State) (r : Request) : (issueNext s r).issued = r :: s.issued := rfl
@[simp] theorem issueNext_resp (s : State) (r : Request) : (issueNext s r).resp = s.resp := rfl

end Sys2Proof.Machine
end

