-- ==== Sys2Proof/Laws/Memory.lean ====
section
/-! SUPPORT. The laws of the receive buffer: what one read and one write of a byte do, that a write keeps the canonical
form and the buffer's offsets, and what a range of bytes is. -/

namespace Sys2Proof.Machine

@[simp] theorem Memory.byteAt_nil (a : Nat) : Memory.byteAt [] a = Memory.unlisted := rfl

theorem Memory.byteAt_cons (k : Nat) (b : Byte) (m : Memory) (a : Nat) :
    Memory.byteAt ((k, b) :: m) a = if k = a then b else Memory.byteAt m a := rfl

/-- Every offset of the buffer holds a byte (R40). -/
theorem Memory.read_inside (m : Memory) (a : Nat) (h : a < Config.bufCap) :
    Memory.read m a = some (Memory.byteAt m a) := if_pos h

/-- No other offset exists (R40). -/
theorem Memory.read_outside (m : Memory) (a : Nat) (h : ¬ a < Config.bufCap) : Memory.read m a = none := if_neg h

/-- What a read that gives a byte gives. -/
theorem Memory.read_eq_some (m : Memory) (a : Nat) (b : Byte) :
    Memory.read m a = some b ↔ a < Config.bufCap ∧ Memory.byteAt m a = b := by
  simp [Memory.read]

/-- Below every entry there is nothing listed. -/
theorem Memory.byteAt_of_above (m : Memory) (k a : Nat) (h : Memory.above k m = true) (ha : a ≤ k) :
    Memory.byteAt m a = Memory.unlisted := by
  induction m with
  | nil => rfl
  | cons c m ih =>
    obtain ⟨j, x⟩ := c
    simp only [Memory.above, List.all_cons, Bool.and_eq_true, decide_eq_true_eq] at h ih
    rw [Memory.byteAt_cons, if_neg (by omega), ih h.2]

theorem Memory.wf_cons (k : Nat) (b : Byte) (m : Memory) :
    Memory.wf ((k, b) :: m) = true ↔ Memory.above k m = true ∧ b ≠ Memory.unlisted ∧ Memory.wf m = true := by
  simp [Memory.wf, and_assoc]

theorem Memory.byteAt_consEntry_of_ne (a a' : Nat) (b : Byte) (m : Memory) (h : a' ≠ a) :
    Memory.byteAt (Memory.consEntry a b m) a' = Memory.byteAt m a' := by
  unfold Memory.consEntry
  split
  · rfl
  · exact if_neg (Ne.symm h)

theorem Memory.byteAt_consEntry_self (a : Nat) (b : Byte) (m : Memory) (h : Memory.byteAt m a = Memory.unlisted) :
    Memory.byteAt (Memory.consEntry a b m) a = b := by
  unfold Memory.consEntry
  split
  · next hb => rw [h, hb]
  · exact if_pos rfl

theorem Memory.above_consEntry (k a : Nat) (b : Byte) (m : Memory) (hk : k < a) (h : Memory.above k m = true) :
    Memory.above k (Memory.consEntry a b m) = true := by
  unfold Memory.consEntry
  split
  · exact h
  · simpa [Memory.above, hk] using h

theorem Memory.wf_consEntry (a : Nat) (b : Byte) (m : Memory) (ha : Memory.above a m = true) (h : Memory.wf m = true) :
    Memory.wf (Memory.consEntry a b m) = true := by
  unfold Memory.consEntry
  split
  · exact h
  · next hb => exact (Memory.wf_cons _ _ _).mpr ⟨ha, hb, h⟩

theorem Memory.mem_consEntry (a : Nat) (b : Byte) (m : Memory) (c : Host.Cell) (h : c ∈ Memory.consEntry a b m) :
    c = (a, b) ∨ c ∈ m := by
  unfold Memory.consEntry at h
  split at h
  · exact .inr h
  · exact List.mem_cons.mp h

/-- A byte written is the byte there. -/
theorem Memory.byteAt_write_self (m : Memory) (a : Nat) (b : Byte) (h : Memory.wf m = true) :
    Memory.byteAt (Memory.write m a b) a = b := by
  induction m with
  | nil => exact Memory.byteAt_consEntry_self _ _ _ rfl
  | cons c m ih =>
    obtain ⟨k, x⟩ := c
    rw [Memory.wf_cons] at h
    simp only [Memory.write]
    split
    · next hak =>
      apply Memory.byteAt_consEntry_self
      rw [Memory.byteAt_cons, if_neg (by omega), Memory.byteAt_of_above m k a h.1 (by omega)]
    · split
      · next hka => exact Memory.byteAt_consEntry_self _ _ _ (Memory.byteAt_of_above m k a h.1 (by omega))
      · next hka => rw [Memory.byteAt_cons, if_neg hka, ih h.2.2]

/-- Every other offset holds what it held. -/
theorem Memory.byteAt_write_of_ne (m : Memory) (a a' : Nat) (b : Byte) (h : a' ≠ a) :
    Memory.byteAt (Memory.write m a b) a' = Memory.byteAt m a' := by
  induction m with
  | nil => exact Memory.byteAt_consEntry_of_ne _ _ _ _ h
  | cons c m ih =>
    obtain ⟨k, x⟩ := c
    simp only [Memory.write]
    split
    · exact Memory.byteAt_consEntry_of_ne _ _ _ _ h
    · split
      · next hka => rw [Memory.byteAt_consEntry_of_ne _ _ _ _ h, Memory.byteAt_cons, if_neg (by omega)]
      · rw [Memory.byteAt_cons, Memory.byteAt_cons, ih]

/-- A read after a write at the same offset gives the byte written. -/
theorem Memory.read_write_self (m : Memory) (a : Nat) (b : Byte) (h : Memory.wf m = true) (ha : a < Config.bufCap) :
    Memory.read (Memory.write m a b) a = some b := by
  rw [Memory.read_inside _ _ ha, Memory.byteAt_write_self m a b h]

/-- A write leaves every other offset alone. -/
theorem Memory.read_write_of_ne (m : Memory) (a a' : Nat) (b : Byte) (h : a' ≠ a) :
    Memory.read (Memory.write m a b) a' = Memory.read m a' := by
  simp only [Memory.read, Memory.byteAt_write_of_ne m a a' b h]

theorem Memory.above_write (m : Memory) (k a : Nat) (b : Byte) (hk : k < a) (h : Memory.above k m = true) :
    Memory.above k (Memory.write m a b) = true := by
  induction m with
  | nil => exact Memory.above_consEntry _ _ _ _ hk h
  | cons c m ih =>
    obtain ⟨j, x⟩ := c
    have h' := h
    simp only [Memory.above, List.all_cons, Bool.and_eq_true, decide_eq_true_eq] at h ih
    simp only [Memory.write]
    split
    · exact Memory.above_consEntry _ _ _ _ hk h'
    · split
      · exact Memory.above_consEntry _ _ _ _ hk h.2
      · have := ih h.2
        simpa [Memory.above, h.1] using this

/-- A write keeps the canonical form. -/
theorem Memory.wf_write (m : Memory) (a : Nat) (b : Byte) (h : Memory.wf m = true) :
    Memory.wf (Memory.write m a b) = true := by
  induction m with
  | nil => exact Memory.wf_consEntry _ _ _ rfl h
  | cons c m ih =>
    obtain ⟨k, x⟩ := c
    have h' := h
    rw [Memory.wf_cons] at h
    simp only [Memory.write]
    split
    · next hak =>
      refine Memory.wf_consEntry _ _ _ ?_ h'
      have h1 := h.1
      simp only [Memory.above, List.all_cons, Bool.and_eq_true, decide_eq_true_eq, List.all_eq_true] at h1 ⊢
      exact ⟨hak, fun c hc => lt_trans hak (h1 c hc)⟩
    · split
      · next hka => subst hka; exact Memory.wf_consEntry _ _ _ h.1 h.2.2
      · next h1 h2 => exact (Memory.wf_cons _ _ _).mpr ⟨Memory.above_write m k a b (by omega) h.1, h.2.1, ih h.2.2⟩

/-- A write at an offset the buffer has lists no offset it does not have. -/
theorem Memory.inside_write (m : Memory) (n a : Nat) (b : Byte) (ha : a < n) (h : ∀ c ∈ m, c.1 < n) :
    ∀ c ∈ Memory.write m a b, c.1 < n := by
  have key : ∀ m : Memory, (∀ c ∈ m, c.1 < n) → ∀ c ∈ Memory.consEntry a b m, c.1 < n := fun m hm c hc =>
    (Memory.mem_consEntry a b m c hc).elim (fun e => e ▸ ha) (hm c)
  induction m with
  | nil => exact key [] h
  | cons c m ih =>
    obtain ⟨k, x⟩ := c
    have hm : ∀ c ∈ m, c.1 < n := fun c hc => h c (List.mem_cons_of_mem _ hc)
    simp only [Memory.write]
    split
    · exact key _ h
    · split
      · exact key _ hm
      · intro c hc
        rcases List.mem_cons.mp hc with rfl | hc
        exacts [h _ List.mem_cons_self, ih hm c hc]

/-- Memories in canonical form that hold the same bytes are the same data. -/
theorem Memory.ext_of_wf (m m' : Memory) (h : Memory.wf m = true) (h' : Memory.wf m' = true)
    (hb : ∀ a, Memory.byteAt m a = Memory.byteAt m' a) : m = m' := by
  induction m generalizing m' with
  | nil =>
    cases m' with
    | nil => rfl
    | cons c m' =>
      obtain ⟨k, x⟩ := c
      have := hb k
      rw [Memory.byteAt_cons, if_pos rfl] at this
      exact absurd this.symm ((Memory.wf_cons _ _ _).mp h').2.1
  | cons c m ih =>
    obtain ⟨k, x⟩ := c
    rw [Memory.wf_cons] at h
    cases m' with
    | nil =>
      have := hb k
      rw [Memory.byteAt_cons, if_pos rfl] at this
      exact absurd this h.2.1
    | cons c' m' =>
      obtain ⟨j, y⟩ := c'
      rw [Memory.wf_cons] at h'
      have hkj : k = j := by
        rcases Nat.lt_trichotomy k j with hlt | heq | hlt
        · have := hb k
          rw [Memory.byteAt_cons, if_pos rfl, Memory.byteAt_cons, if_neg (by omega),
            Memory.byteAt_of_above m' j k h'.1 (by omega)] at this
          exact absurd this h.2.1
        · exact heq
        · have := hb j
          rw [Memory.byteAt_cons, if_neg (by omega), Memory.byteAt_of_above m k j h.1 (by omega), Memory.byteAt_cons,
            if_pos rfl] at this
          exact absurd this.symm h'.2.1
      subst hkj
      have hx := hb k
      rw [Memory.byteAt_cons, if_pos rfl, Memory.byteAt_cons, if_pos rfl] at hx
      subst hx
      congr 1
      refine ih m' h.2.2 h'.2.2 fun a => ?_
      by_cases ha : a ≤ k
      · rw [Memory.byteAt_of_above m k a h.1 ha, Memory.byteAt_of_above m' k a h'.1 ha]
      · have := hb a
        rwa [Memory.byteAt_cons, if_neg (by omega), Memory.byteAt_cons, if_neg (by omega)] at this

@[simp] theorem Memory.readRange_zero (m : Memory) (a : Nat) : Memory.readRange m a 0 = some [] := rfl

/-- A range of `n + 1` bytes is its first byte and the range of `n` bytes after it. -/
theorem Memory.readRange_succ_eq_some (m : Memory) (a n : Nat) (bs : Bytes) :
    Memory.readRange m a (n + 1) = some bs ↔
      ∃ b rest, bs = b :: rest ∧ Memory.read m a = some b ∧ Memory.readRange m (a + 1) n = some rest := by
  simp only [Memory.readRange]
  split
  · next b bs' h1 h2 => simp [h1, h2, eq_comm]
  · next h =>
    simp only [reduceCtorEq, false_iff, not_exists, not_and]
    intro b rest _ h1 h2
    exact h b rest h1 h2

/-- The bytes of a range: as many as asked for, each the byte at its offset. -/
theorem Memory.readRange_eq_some_iff (m : Memory) (a n : Nat) (bs : Bytes) :
    Memory.readRange m a n = some bs ↔ bs.length = n ∧ ∀ k < n, Memory.read m (a + k) = bs[k]? := by
  induction n generalizing a bs with
  | zero =>
    rw [Memory.readRange_zero, List.length_eq_zero_iff]
    exact ⟨fun h => ⟨(Option.some.inj h).symm, fun k hk => absurd hk (Nat.not_lt_zero k)⟩, fun h => by rw [h.1]⟩
  | succ n ih =>
    rw [Memory.readRange_succ_eq_some]
    constructor
    · rintro ⟨b, rest, rfl, hb, hr⟩
      obtain ⟨hl, hk⟩ := (ih (a + 1) rest).mp hr
      refine ⟨by simp [hl], fun k hkn => ?_⟩
      cases k with
      | zero => simpa using hb
      | succ k =>
        have := hk k (by omega)
        simpa [Nat.add_assoc, Nat.add_comm 1 k] using this
    · rintro ⟨hl, hk⟩
      cases bs with
      | nil => simp at hl
      | cons b rest =>
        refine ⟨b, rest, rfl, by simpa using hk 0 (by omega), (ih (a + 1) rest).mpr ⟨by simpa using hl, fun k hkn => ?_⟩⟩
        have := hk (k + 1) (by omega)
        simpa [Nat.add_assoc, Nat.add_comm 1 k] using this

/-- Writing the byte after a range makes the range one longer. -/
theorem Memory.readRange_write_next (m : Memory) (n : Nat) (bs : Bytes) (d : Byte)
    (hw : Memory.wf m = true) (hn : n < Config.bufCap) (h : Memory.readRange m 0 n = some bs) :
    Memory.readRange (Memory.write m n d) 0 (n + 1) = some (bs ++ [d]) := by
  rw [Memory.readRange_eq_some_iff] at h ⊢
  obtain ⟨hl, hk⟩ := h
  refine ⟨by simp [hl], fun k hkn => ?_⟩
  by_cases hkn' : k = n
  · subst hkn'
    rw [Nat.zero_add, Memory.read_write_self m k d hw hn, ← hl]
    simp
  · have hlt : k < n := by omega
    rw [Nat.zero_add, Memory.read_write_of_ne _ _ _ _ hkn']
    have := hk k hlt
    rw [Nat.zero_add] at this
    rw [this, List.getElem?_append_left (by omega)]

/-- The byte at an offset inside a range. -/
theorem Memory.read_of_readRange (m : Memory) (n k : Nat) (bs : Bytes) (h : Memory.readRange m 0 n = some bs)
    (hk : k < n) : Memory.read m k = bs[k]? := by
  have := ((Memory.readRange_eq_some_iff m 0 n bs).mp h).2 k hk
  simpa using this

/-- A range inside the buffer has its bytes, whatever they are. -/
theorem Memory.readRange_inside (m : Memory) (a n : Nat) (h : a + n ≤ Config.bufCap) :
    ∃ bs, Memory.readRange m a n = some bs := by
  induction n generalizing a with
  | zero => exact ⟨[], rfl⟩
  | succ n ih =>
    obtain ⟨bs, hbs⟩ := ih (a + 1) (by omega)
    exact ⟨_, (Memory.readRange_succ_eq_some _ _ _ _).mpr ⟨_, bs, rfl, Memory.read_inside m a (by omega), hbs⟩⟩

/-- Memories that hold the same bytes at the offsets of a range have the same range. -/
theorem Memory.readRange_congr (m m' : Memory) (a n : Nat) (h : ∀ k < n, Memory.read m (a + k) = Memory.read m' (a + k)) :
    Memory.readRange m a n = Memory.readRange m' a n := by
  apply Option.ext
  intro bs
  rw [Memory.readRange_eq_some_iff, Memory.readRange_eq_some_iff]
  exact and_congr_right fun _ => forall₂_congr fun k hk => by rw [h k hk]

end Sys2Proof.Machine
end

