-- ==== Sys2Proof/Laws/PerInstr.lean ====
section
/-! SUPPORT. What holds of every instruction as syntax, one lemma per constructor: the decoder gives only instructions
whose operands fit their fields (30_encoding.md rule R62). -/

namespace Sys2Proof.Laws.DecodedIsWellFormed

/-- Whatever request decodes to `i`, `i` is well formed. -/
def Statement (i : Instr) : Prop := ∀ r, decode r = .ok i → wellFormed i = true

/-- The decoder checks the operand bounds of every operation that has one. -/
theorem of_decode (r : Request) (i : Instr) (h : decode r = .ok i) : wellFormed i = true := by
  cases r with
  | mnemonic m =>
    simp only [decode, Except.ok.injEq, decodeMnemonicWord] at h
    split at h
    · subst h; rfl
    · split at h
      · subst h; rfl
      · split at h <;> subst h <;> rfl
  | op x =>
    simp only [decode, decodeFields] at h
    cases hop : decodeOp x.op with
    | none => simp [hop] at h
    | some n =>
      cases n <;> simp only [hop, withData_eq_ok, withString_eq_ok, Except.ok.injEq] at h <;>
        first
          | (obtain ⟨hf, rfl⟩ := h; exact hf)
          | (subst h; rfl)

theorem rxStart : Statement .rxStart := fun r h => of_decode r _ h
theorem rxPush (b : Byte) : Statement (.rxPush b) := fun r h => of_decode r _ h
theorem rxTake : Statement .rxTake := fun r h => of_decode r _ h
theorem rxStatus : Statement .rxStatus := fun r h => of_decode r _ h
theorem escape (d : Bytes) : Statement (.escape d) := fun r h => of_decode r _ h
theorem unescape (d : Bytes) : Statement (.unescape d) := fun r h => of_decode r _ h
theorem chkCompute (d : Bytes) : Statement (.chkCompute d) := fun r h => of_decode r _ h
theorem chkValidate (d : Bytes) : Statement (.chkValidate d) := fun r h => of_decode r _ h
theorem lenFromPayload (d : Bytes) : Statement (.lenFromPayload d) := fun r h => of_decode r _ h
theorem lenFromRaw (d : Bytes) : Statement (.lenFromRaw d) := fun r h => of_decode r _ h
theorem frameEncode (d : Bytes) : Statement (.frameEncode d) := fun r h => of_decode r _ h
theorem cmdEncode (m : Mnemonic) (a : Action) (v : BitVec 32) (str : List Scalar) :
    Statement (.cmdEncode m a v str) := fun r h => of_decode r _ h
theorem cmdDecode (m : Mnemonic) : Statement (.cmdDecode m) := fun r h => of_decode r _ h
theorem atEncode (m : Mnemonic) (a : Action) (f : Byte) (v : BitVec 32) (str : List Scalar) :
    Statement (.atEncode m a f v str) := fun r h => of_decode r _ h
theorem ni : Statement .ni := fun r h => of_decode r _ h
theorem sc : Statement .sc := fun r h => of_decode r _ h
theorem bh : Statement .bh := fun r h => of_decode r _ h

end Sys2Proof.Laws.DecodedIsWellFormed
end

