-- ==== Sys2Proof/Laws/Receive.lean ====
section
/-! SUPPORT. What the accumulator's operations do, said once: the append, the completeness check on the bytes held, and
every outcome of a push and of a take. -/

namespace Sys2Proof.Machine

/-- The length counter does not wrap inside the buffer (R23, R30). -/
theorem len_add_one_toNat (s : State) (h : s.len.toNat < Config.bufCap) : (s.len + 1).toNat = s.len.toNat + 1 := by
  simp only [Config.bufCap] at h
  rw [BitVec.toNat_add, show (1 : BitVec 17).toNat = 1 from rfl]
  omega

/-- As many bytes are held as `len` counts. -/
theorem heldBytes_length (s : State) (bytes : Bytes) (h : heldBytes s = some bytes) : bytes.length = s.len.toNat :=
  ((Memory.readRange_eq_some_iff _ _ _ _).mp h).1

/-- Each byte held is the byte at its offset. -/
theorem heldBytes_read (s : State) (bytes : Bytes) (h : heldBytes s = some bytes) (k : Nat) (hk : k < s.len.toNat) :
    Memory.read s.buf k = bytes[k]? := Memory.read_of_readRange _ _ _ _ h hk

/-- An append puts its byte after the bytes held (R124). -/
theorem heldBytes_appended (s : State) (bytes : Bytes) (d : Byte) (hw : Memory.wf s.buf = true)
    (h : heldBytes s = some bytes) (hl : s.len.toNat < Config.bufCap) :
    heldBytes (appended s d) = some (bytes ++ [d]) := by
  simp only [heldBytes, appended_buf, appended_len, len_add_one_toNat s hl] at h ⊢
  exact Memory.readRange_write_next _ _ _ _ hw hl h

/-- While `len` stays inside the buffer, every byte it counts is there. -/
theorem heldBytes_inside (s : State) (h : s.len.toNat ≤ Config.bufCap) : ∃ bytes, heldBytes s = some bytes :=
  Memory.readRange_inside _ _ _ (by rwa [Nat.zero_add])

/-- The byte at an offset below `len` is the byte held there. -/
theorem byteAt_of_held (s : State) (bytes : Bytes) (h : heldBytes s = some bytes) (k : Nat) (hk : k < s.len.toNat) :
    bytes.getD k 0 = Memory.byteAt s.buf k := by
  have hl := heldBytes_length s bytes h
  have hr := heldBytes_read s bytes h k hk
  rw [List.getElem?_eq_getElem (by omega), Memory.read_eq_some] at hr
  rw [List.getD_eq_getElem _ _ (by omega), hr.2]

/-- The running checksum after an append (R25, R124). -/
theorem appended_csum_eq_sum8 (s : State) (bytes : Bytes) (d : Byte) (h : heldBytes s = some bytes)
    (hc : s.csum = sum8 (bytes.drop 3)) : (appended s d).csum = sum8 ((bytes ++ [d]).drop 3) := by
  have hl := heldBytes_length s bytes h
  rw [appended_csum]
  split
  · next h3 => rw [List.drop_append_of_le_length (by omega), sum8_append, hc]; simp
  · next h3 =>
    rw [hc, List.drop_eq_nil_of_le (by omega), List.drop_eq_nil_of_le (by simp; omega)]

/-- The completeness check reads the length field of the bytes held (R125). -/
theorem frameComplete_of_held (s : State) (bytes : Bytes) (h : heldBytes s = some bytes) :
    frameComplete s = decide (3 < s.len.toNat ∧ s.len.toNat = declaredLength bytes + overhead) := by
  by_cases h3 : 3 < s.len.toNat
  · simp only [frameComplete, declaredLength, byteAt_of_held s bytes h 1 (by omega),
      byteAt_of_held s bytes h 2 (by omega), Bool.decide_and]
  · simp [frameComplete, h3]

/-- A push of the escape byte with none pending: held, not appended (R123). -/
theorem acceptPush_escape (s : State) (h : s.escPending = false) :
    acceptPush escByte s = answer (acceptRaw s true) (pushOk (acceptRaw s true)) := by
  simp [acceptPush, h]

/-- A push that outputs a byte appends it (R122, R124). -/
theorem acceptPush_append (s : State) (b d : Byte) (p : Bool) (h : unescStep s.escPending b = (p, some d))
    (hl : s.len.toNat < Config.bufCap) : acceptPush b s = finishPush (appended (acceptRaw s p) d) := by
  simp [acceptPush, h, appendByte, hl]

/-- Everything the end of a push can do (R126, R127). -/
theorem finishPush_next (s t : State) (h : finishPush s = .next t) :
    (frameComplete s = false ∧ t = respond s (pushOk s)) ∨
    (frameComplete s = true ∧ s.csum = 0xFF ∧ t = respond (holdFrame s) (pushOk (holdFrame s))) ∨
    (frameComplete s = true ∧ s.csum ≠ 0xFF ∧
      t = respond (discardFrame s) (pushError .checksumMismatch (discardFrame s))) := by
  unfold finishPush at h
  split at h
  · next hf =>
    split at h
    · next hc => exact .inr (.inl ⟨hf, hc, by simpa [answer] using h.symm⟩)
    · next hc => exact .inr (.inr ⟨hf, hc, by simpa [answer] using h.symm⟩)
  · next hf => exact .inl ⟨by simpa using hf, by simpa [answer] using h.symm⟩

/-- Everything a push can do when it gives a next state (R127). -/
theorem execRxPush_next (b : Byte) (s t : State) (h : execRxPush b s = .next t) :
    ((s.rxState = .complete ∨ s.rxState = .cksumErr) ∧ t = respond s (pushError .busy s)) ∨
    (acceptsPush s ∧ ∃ p, unescStep s.escPending b = (p, none) ∧ t = respond (acceptRaw s p) (pushOk (acceptRaw s p))) ∨
    (acceptsPush s ∧ ∃ p d, unescStep s.escPending b = (p, some d) ∧ s.len.toNat < Config.bufCap ∧
      finishPush (appended (acceptRaw s p) d) = .next t) := by
  have key : acceptPush b s = .next t →
      (∃ p, unescStep s.escPending b = (p, none) ∧ t = respond (acceptRaw s p) (pushOk (acceptRaw s p))) ∨
      (∃ p d, unescStep s.escPending b = (p, some d) ∧ s.len.toNat < Config.bufCap ∧
        finishPush (appended (acceptRaw s p) d) = .next t) := by
    intro h
    unfold acceptPush at h
    split at h
    · next p hu => exact .inl ⟨p, hu, by simpa [answer] using h.symm⟩
    · next p d hu =>
      unfold appendByte at h
      split at h
      · simp at h
      · next u hu' =>
        split at hu'
        · next hl =>
          simp only [Except.ok.injEq] at hu'; subst hu'
          exact .inr ⟨p, d, hu, by simpa using hl, h⟩
        · simp at hu'
  unfold execRxPush at h
  split at h
  · next hs => exact .inr ((key h).imp (⟨.inl hs, ·⟩) (⟨.inl hs, ·⟩))
  · next hs => exact .inr ((key h).imp (⟨.inr hs, ·⟩) (⟨.inr hs, ·⟩))
  · next hs => exact .inl ⟨.inl hs, by simpa [answer] using h.symm⟩
  · next hs => exact .inl ⟨.inr hs, by simpa [answer] using h.symm⟩

/-- A push in a state that accepts one goes through the datapath (R121, R127). -/
theorem execRxPush_accepts (b : Byte) (s : State) (h : acceptsPush s) : execRxPush b s = acceptPush b s := by
  rcases h with h | h <;> simp [execRxPush, h]

/-- Everything a take can do when it gives a next state (R129). -/
theorem execRxTake_next (s t : State) (h : execRxTake s = .next t) :
    (acceptsPush s ∧ t = respond s (errorResponse .notReady)) ∨
    (s.rxState = .complete ∧ ∃ bytes, heldBytes s = some bytes ∧ t = respond (clearAccumulator s) (okOut bytes)) ∨
    (s.rxState = .cksumErr ∧ t = respond { s with rxState := .empty } (errorResponse .checksumMismatch)) := by
  unfold execRxTake at h
  split at h
  · next hs => exact .inl ⟨.inl hs, by simpa [raise, answer] using h.symm⟩
  · next hs => exact .inl ⟨.inr hs, by simpa [raise, answer] using h.symm⟩
  · next hs =>
    split at h
    · next bytes hb => exact .inr (.inl ⟨hs, bytes, hb, by simpa [answer] using h.symm⟩)
    · simp at h
  · next hs => exact .inr (.inr ⟨hs, by simpa [raise, answer] using h.symm⟩)

/-- `STATUS.STATE` is the code of the state (R27). -/
@[simp] theorem stateField_statusWord (s : State) : stateField (statusWord s) = rxStateCode s.rxState := by
  apply BitVec.eq_of_getLsbD_eq
  intro i hi
  have : i = 0 ∨ i = 1 := by omega
  rcases this with rfl | rfl <;> simp [stateField, statusWord]

end Sys2Proof.Machine
end

