-- ==== Sys2Proof/Laws/Step.lean ====
section
/-! SUPPORT. What one step can do, said once: nothing where nothing is issued, the rejection of a request that is no
instruction, the meaning of one that is. -/

namespace Sys2Proof.Machine

theorem takeIssued_nil (s : State) (h : s.issued = []) : takeIssued s = none := by simp [takeIssued, h]

theorem takeIssued_cons (s : State) (r : Request) (rest : List Request) (h : s.issued = r :: rest) :
    takeIssued s = some (r, { s with issued := rest }) := by simp [takeIssued, h]

/-- Everything a step is. -/
theorem step_cases (s : State) :
    (s.issued = [] ∧ step s = .next s) ∨
    (∃ r rest e, s.issued = r :: rest ∧ decode r = .error e ∧ step s = rejectRequest e { s with issued := rest }) ∨
    (∃ r rest i, s.issued = r :: rest ∧ decode r = .ok i ∧ step s = exec i { s with issued := rest }) := by
  cases hs : s.issued with
  | nil => exact .inl ⟨rfl, by simp [step, takeIssued_nil s hs]⟩
  | cons r rest =>
    right
    cases hd : decode r with
    | error e => exact .inl ⟨r, rest, e, rfl, hd, by simp [step, takeIssued_cons s r rest hs, hd]⟩
    | ok i => exact .inr ⟨r, rest, i, rfl, hd, by simp [step, takeIssued_cons s r rest hs, hd]⟩

/-- An answer without a state change leaves every field of the machine as it was. -/
theorem answer_eq (s : State) (r : Response) : answer s r = .next { s with resp := some r } := rfl

/-- The operations that are no operation of the accumulator answer without a state change: a function of their
operands and of the command table (R20). -/
def pureResponse (t : CmdTable) : Instr → Option Response
  | .rxStart => none
  | .rxPush _ => none
  | .rxTake => none
  | .rxStatus => none
  | .escape d => some (okOut (esc d))
  | .unescape d =>
    some ⟨.ok, some (unescFrom false d).2, some ((BitVec.ofBool (unescFrom false d).1).setWidth 16), none⟩
  | .chkCompute d => some (okQ ((chk d).setWidth 16))
  | .chkValidate d =>
    some (if d.length < overhead then errorResponse .outOfBounds
      else if sum8 (d.drop 3) = 0xFF then okQ 1 else errorResponse .checksumMismatch)
  | .lenFromPayload d =>
    some (if Config.maxPayload < d.length then errorResponse .lengthOverflow else okOut (lengthPair d.length))
  | .lenFromRaw d =>
    some (match d with
      | _ :: msb :: lsb :: _ => okOut [msb, lsb]
      | _ => errorResponse .outOfBounds)
  | .frameEncode d =>
    some (if d.length = 0 then errorResponse .structurallyTooShort
      else if Config.maxPayload < d.length then errorResponse .lengthOverflow else okOut (wire d))
  | .cmdEncode m a v str => some (resultOut (encodeCommand t m a v str))
  | .cmdDecode m => some (decodeResponse t m)
  | .atEncode m a f v str => some (resultOut (encodeAtRequest t m a f v str))
  | .ni => some (decodeResponse t mnemNI)
  | .sc => some (decodeResponse t mnemSC)
  | .bh => some (decodeResponse t mnemBH)

theorem exec_of_pureResponse (i : Instr) (s : State) (r : Response) (h : pureResponse s.cmdTable i = some r) :
    exec i s = answer s r := by
  cases i
  case lenFromRaw d =>
    rcases d with _ | ⟨x, _ | ⟨y, _ | ⟨z, d⟩⟩⟩ <;> cases h <;> rfl
  all_goals simp only [pureResponse, Option.some.injEq, reduceCtorEq] at h
  all_goals subst h
  all_goals simp only [exec, execEscape, execUnescape, execChkCompute, execChkValidate, execLenFromPayload,
    execFrameEncode, execCmdEncode, execCmdDecode, execAtEncode, execNi, execSc, execBh, raise]
  all_goals (repeat' split) <;> rfl

end Sys2Proof.Machine
end

