-- ==== Sys2Proof/Tests/Slice0.lean ====
section
/-! SUPPORT. Tests: one step each, on small states, with the results of 95_test_vectors.md and of the examples in the
rules; the ill-formed terms each check refuses; a witness for the hypotheses of every statement that has some. -/

namespace Sys2Proof.Tests

open Sys2Proof.Machine

/-! ### Well-formedness: one ill-formed term per check -/

theorem dataFits_replicate (n : Nat) (b : Byte) : dataFits (List.replicate n b) = decide (n ≤ Config.maxData) := by
  unfold dataFits; rw [List.length_replicate]

theorem stringFits_replicate (n : Nat) (c : Scalar) : stringFits (List.replicate n c) = decide (n ≤ Config.maxString) := by
  unfold stringFits; rw [List.length_replicate]

theorem length_replicate_le (n : Nat) (b : Byte) : (List.replicate n b).length ≤ n := le_of_eq List.length_replicate

theorem lt_length_replicate {α : Type} {k n : Nat} (h : k < n) (x : α) : k < (List.replicate n x).length :=
  List.length_replicate ▸ h

theorem test_overlong_data_is_ill_formed : wellFormed (.escape (List.replicate 65540 0)) = false :=
  (dataFits_replicate 65540 0).trans (by decide)

theorem test_overlong_string_is_ill_formed : wellFormed (.cmdEncode 0x4E49 .write 0 (List.replicate 65536 0)) = false :=
  (stringFits_replicate 65536 0).trans (by decide)

theorem test_longest_operands_are_well_formed :
    wellFormed (.frameEncode (List.replicate 65539 0)) = true ∧
    wellFormed (.atEncode 0x4E49 .write 0 0 (List.replicate 65535 0)) = true :=
  ⟨(dataFits_replicate 65539 0).trans (by decide), (stringFits_replicate 65535 0).trans (by decide)⟩

/-! ### Decoding: every constructor, from the fields the spec writes (R64, R66, R71, R153) -/

theorem test_decode_receive_operations :
    decode (.op { op := 0x01 }) = .ok .rxStart ∧ decode (.op { op := 0x02, b := 0x7E }) = .ok (.rxPush 0x7E) ∧
    decode (.op { op := 0x03 }) = .ok .rxTake ∧ decode (.op { op := 0x04 }) = .ok .rxStatus := by decide

theorem test_decode_data_operations :
    decode (.op { op := 0x10, d := [0x7E, 0x11] }) = .ok (.escape [0x7E, 0x11]) ∧
    decode (.op { op := 0x11, d := [0x7D] }) = .ok (.unescape [0x7D]) ∧
    decode (.op { op := 0x12, d := [0x08] }) = .ok (.chkCompute [0x08]) ∧
    decode (.op { op := 0x13, d := [0x7E] }) = .ok (.chkValidate [0x7E]) ∧
    decode (.op { op := 0x14, d := [] }) = .ok (.lenFromPayload []) ∧
    decode (.op { op := 0x15, d := [1, 2, 3] }) = .ok (.lenFromRaw [1, 2, 3]) ∧
    decode (.op { op := 0x16, d := [0x81] }) = .ok (.frameEncode [0x81]) := by decide

theorem test_decode_command_operations :
    decode (.op { op := 0x20, m := 0x4248, a := 2, v := 0xFF }) = .ok (.cmdEncode 0x4248 .write 0xFF []) ∧
    decode (.op { op := 0x20, m := 0x4E49, a := 3 }) = .ok (.cmdEncode 0x4E49 .reserved 0 []) ∧
    decode (.op { op := 0x21, m := 0x4E49 }) = .ok (.cmdDecode 0x4E49) ∧
    decode (.op { op := 0x22, m := 0x4E49, a := 1, f := 0x01 }) = .ok (.atEncode 0x4E49 .read 0x01 0 []) := by decide

theorem test_decode_mnemonic_words :
    decode (.mnemonic 0x4E49) = .ok .ni ∧ decode (.mnemonic 0x5343) = .ok .sc ∧ decode (.mnemonic 0x4248) = .ok .bh ∧
    decode (.mnemonic 0x6E69) = .ok (.cmdDecode 0x6E69) := by decide

theorem test_decode_rejects_by_name :
    decode (.op { op := 0x17 }) = .error .reservedOp ∧
    decode (.op { op := 0x10, d := List.replicate 65540 0 }) = .error .dataTooLong ∧
    decode (.op { op := 0x20, s := List.replicate 65536 0 }) = .error .stringTooLong := by
  have hd := (dataFits_replicate 65540 0).trans (by decide : _ = false)
  have hs := (stringFits_replicate 65536 0).trans (by decide : _ = false)
  generalize List.replicate 65540 (0 : Byte) = d at *
  generalize List.replicate 65536 (0 : Scalar) = str at *
  refine ⟨by decide, ?_, ?_⟩
  · simp [decode, decodeFields, decodeOp, opMap, List.find?, withData, hd]
  · simp [decode, decodeFields, decodeOp, opMap, List.find?, withString, hs]

theorem test_table_words :
    decodeTableWord 8 0x01 = some .rxStart ∧ decodeTableWord 8 0x04 = some .rxStatus ∧
    decodeTableWord 8 0x16 = some (.frameEncode []) ∧ decodeTableWord 8 0x20 = some (.cmdEncode 0 .none 0 []) ∧
    decodeTableWord 16 0x4E49 = some .ni ∧ decodeTableWord 16 0x5343 = some .sc ∧
    decodeTableWord 16 0x4248 = some .bh ∧ decodeTableWord 8 0x05 = none := by decide

theorem test_word_issued_at_reset_runs :
    step (State.reset.withFetchWord 8 0x03) = exec .rxTake State.reset ∧
    step (State.reset.withFetchWord 16 0x4E49) = exec .ni State.reset := ⟨rfl, rfl⟩

/-! ### Small states -/

/-- A table of the three fixed rows and one row of kind QUERY, "QQ". -/
def table : CmdTable := ⟨[rowNI, rowSC 0xFFFF, ⟨0x5151, .query⟩, rowBH 0], by decide⟩

/-- The state after reset with that table. -/
def ready : State := { State.reset with cmdTable := table }

/-- An accumulator that holds `bytes`. -/
def holding (rx : RxState) (bytes : Bytes) (csum : Byte) (pending : Bool) : State :=
  { ready with
    rxState := rx, len := BitVec.ofNat 17 bytes.length, csum := csum, escPending := pending
    buf := bytes.zipIdx.foldl (fun m x => Memory.write m x.2 x.1) [] }

/-- What an operation returned. -/
def returned (o : Host.Outcome State Fault Refusal) : Option Response :=
  match o with
  | .next t => t.resp
  | .fault _ => none
  | .refused _ => none

/-- `STATUS` after an operation. -/
def statusAfter (o : Host.Outcome State Fault Refusal) : Option (BitVec 32) :=
  match o with
  | .next t => some (statusWord t)
  | .fault _ => none
  | .refused _ => none

/-! ### Vectors of 95_test_vectors.md and the rules' examples -/

/-- Section 2.1. -/
theorem test_escape : returned (exec (.escape [0x00, 0x7E, 0x7D, 0x11, 0x13, 0xFF]) ready) =
    some ⟨.ok, some [0x00, 0x7D, 0x5E, 0x7D, 0x5D, 0x7D, 0x31, 0x7D, 0x33, 0xFF], none, none⟩ := by decide

/-- Section 2.1: the escaped 0x7D is data and the trailing escape byte is reported. -/
theorem test_unescape : returned (exec (.unescape [0x7D, 0x5D, 0x31, 0x7D, 0x7D, 0x00, 0x7D]) ready) =
    some ⟨.ok, some [0x7D, 0x31, 0x5D, 0x00], some 1, none⟩ := by decide

/-- Section 2.2. -/
theorem test_chk_compute : returned (exec (.chkCompute [0x08, 0x01, 0x4E, 0x49]) ready) =
    some ⟨.ok, none, some 0x5F, none⟩ := by decide

/-- Section 2.2. -/
theorem test_chk_validate :
    returned (exec (.chkValidate [0x00, 0x12, 0x34, 0xFF]) ready) = some ⟨.ok, none, some 1, none⟩ ∧
    returned (exec (.chkValidate [0x7E, 0x00, 0x00, 0xFE]) ready) = some ⟨.checksumMismatch, some [], some 0, none⟩ := by
  decide

/-- Section 2.3. -/
theorem test_len_from_payload : returned (exec (.lenFromPayload [0x08, 0x01, 0x4E, 0x49]) ready) =
    some ⟨.ok, some [0x00, 0x04], none, none⟩ := by decide

/-- Section 2.3. -/
theorem test_len_from_raw :
    returned (exec (.lenFromRaw [0x7E, 0x01, 0x02, 0xAA]) ready) = some ⟨.ok, some [0x01, 0x02], none, none⟩ ∧
    returned (exec (.lenFromRaw [0x7E, 0x00]) ready) = some ⟨.outOfBounds, some [], some 0, none⟩ := by decide

/-- Section 2.4: the checksum 0x7E is escaped. -/
theorem test_frame_encode_escapes_checksum : returned (exec (.frameEncode [0x81]) ready) =
    some ⟨.ok, some [0x7E, 0x00, 0x01, 0x81, 0x7D, 0x5E], none, none⟩ := by decide

/-- Section 2.4: the length byte 0x11 is escaped. -/
theorem test_frame_encode_escapes_length : returned (exec (.frameEncode (List.replicate 17 0)) ready) =
    some ⟨.ok, some ([0x7E, 0x00, 0x7D, 0x31] ++ List.replicate 17 0 ++ [0xFF]), none, none⟩ := by decide

/-- Section 2.5, V1: the last push of 7E 00 00 FF. -/
theorem test_push_completes : returned (exec (.rxPush 0xFF) (holding .accum [0x7E, 0x00, 0x00] 0 false)) =
    some ⟨.ok, none, none, some 0x00000402⟩ := by decide

/-- Section 2.5, V2: the last push of 7E 00 00 FE. -/
theorem test_push_mismatch : returned (exec (.rxPush 0xFE) (holding .accum [0x7E, 0x00, 0x00] 0 false)) =
    some ⟨.checksumMismatch, some [], some 0, some 0x00000003⟩ := by decide

/-- Section 2.5, V1. -/
theorem test_take : returned (exec .rxTake (holding .complete [0x7E, 0x00, 0x00, 0xFF] 0xFF false)) =
    some ⟨.ok, some [0x7E, 0x00, 0x00, 0xFF], none, none⟩ := by decide

/-- Section 2.5, V8. -/
theorem test_start : statusAfter (exec .rxStart (holding .accum [0x7E, 0x00, 0x01] 0 true)) = some 0x00000000 := by decide

/-- Section 2.5, V12. -/
theorem test_status : returned (exec .rxStatus (holding .accum [0x7E] 0 true)) =
    some ⟨.ok, none, none, some 0x00000105⟩ := by decide

/-- Section 2.6: a string truncated at 20 characters is the 25 letters A to Y. -/
theorem test_cmd_encode_string :
    returned (exec (.cmdEncode 0x4E49 .write 0 ((List.range 25).map fun k => BitVec.ofNat 21 (0x41 + k))) ready) =
      some ⟨.ok, some ([0x4E, 0x49] ++ (List.range 20).map fun k => BitVec.ofNat 8 (0x41 + k)), none, none⟩ ∧
    returned (exec (.cmdEncode 0x4E49 .write 0 [0x1F600]) ready) =
      some ⟨.ok, some [0x4E, 0x49, 0xF0, 0x9F, 0x98, 0x80], none, none⟩ := by decide

/-- Section 2.6. -/
theorem test_cmd_encode_number :
    returned (exec (.cmdEncode 0x5343 .write 0x1234 []) ready) = some ⟨.ok, some [0x53, 0x43, 0x12, 0x34], none, none⟩ ∧
    returned (exec (.cmdEncode 0x4248 .write 0x100 []) ready) = some ⟨.illegalValue, some [], some 0, none⟩ := by decide

/-- Section 2.6. -/
theorem test_cmd_decode :
    returned (exec (.cmdDecode 0x4248) ready) = some ⟨.ok, none, some 3, none⟩ ∧
    returned (exec (.cmdDecode 0x6E69) ready) = some ⟨.noMatch, some [], some 0, none⟩ := by decide

/-- Section 2.7. -/
theorem test_at_encode : returned (exec (.atEncode 0x5343 .write 0x11 0x0000 []) ready) =
    some ⟨.ok, some [0x7E, 0x00, 0x06, 0x08, 0x7D, 0x31, 0x53, 0x43, 0x00, 0x01, 0x4F], none, none⟩ := by decide

/-- R153, R163: each fixed word gives the index of its row. -/
theorem test_mnemonic_words :
    returned (exec .ni ready) = some ⟨.ok, none, some 0, none⟩ ∧
    returned (exec .sc ready) = some ⟨.ok, none, some 1, none⟩ ∧
    returned (exec .bh ready) = some ⟨.ok, none, some 3, none⟩ := by decide

/-- Section 2.8: a reserved code leaves STATUS = 0x00000201 as it was. -/
theorem test_reserved_code :
    returned (step (issueNext (holding .accum [0x7E, 0x00] 0 false) (.op { op := 0x23 }))) =
      some ⟨.illegalOp, some [], some 0, none⟩ ∧
    statusAfter (step (issueNext (holding .accum [0x7E, 0x00] 0 false) (.op { op := 0x23 }))) = some 0x00000201 := by
  decide

/-- R151: a table without a fixed row, with a row twice, or with a mnemonic that is not ASCII, breaks an invariant. -/
theorem test_tables_refused :
    tableOk [rowNI, rowSC 1] = false ∧ tableOk [rowNI, rowNI, rowSC 1, rowBH 0] = false ∧
    tableOk [rowNI, rowSC 1, rowBH 0, ⟨0x4EC9, .query⟩] = false ∧ tableOk [rowNI, rowSC 0, rowBH 0] = false := by decide

/-! ### Witnesses: for each statement with hypotheses, a state and operands that meet them -/

theorem inv_ready : Inv ready := ⟨by decide, by decide, by decide, [], rfl, rfl, rfl, rfl, rfl⟩

theorem inv_two : Inv (holding .accum [0x7E, 0x00] 0 false) :=
  ⟨by decide, by decide, by decide, [0x7E, 0x00], by decide, by decide, .inl (by decide), .inl (by decide)⟩

theorem inv_three : Inv (holding .accum [0x7E, 0x00, 0x01] 0 true) :=
  ⟨by decide, by decide, by decide, [0x7E, 0x00, 0x01], by decide, by decide, .inl (by decide), .inr rfl⟩

theorem inv_before_last : Inv (holding .accum [0x7E, 0x00, 0x00] 0 false) :=
  ⟨by decide, by decide, by decide, [0x7E, 0x00, 0x00], by decide, by decide, .inl (by decide), .inl (by decide)⟩

theorem inv_complete : Inv (holding .complete [0x7E, 0x00, 0x00, 0xFF] 0xFF false) :=
  ⟨by decide, by decide, by decide, [0x7E, 0x00, 0x00, 0xFF], by decide, by decide, by decide, rfl, rfl⟩

theorem inv_cksumErr : Inv (holding .cksumErr [] 0 false) :=
  ⟨by decide, by decide, by decide, [], by decide, by decide, by decide, rfl, rfl⟩

theorem witness_StepRunsTheDecodedInstruction :
    (issueNext ready (.op { op := 0x03 })).issued = .op { op := 0x03 } :: [] ∧ decode (.op { op := 0x03 }) = .ok .rxTake := by
  decide

theorem witness_IssuedEncodingRunsTheInstruction :
    (issueNext ready (encode (.escape [0x7E]))).issued = encode (.escape [0x7E]) :: [] ∧
    wellFormed (.escape [0x7E]) = true := by decide

theorem witness_NothingIssuedChangesNothing : ready.issued = [] := rfl

/-- Each clause of the reserved codes at both ends of its range. -/
theorem witness_ReservedOpCodeReturnsIllegalOp :
    ∀ c ∈ ([0x00, 0x05, 0x0F, 0x17, 0x1F, 0x23, 0xFF] : List (BitVec 8)),
      (issueNext ready (.op { op := c })).issued = .op { op := c } :: [] ∧
      (c.toNat = 0x00 ∨ (0x05 ≤ c.toNat ∧ c.toNat ≤ 0x0F) ∨ (0x17 ≤ c.toNat ∧ c.toNat ≤ 0x1F) ∨ 0x23 ≤ c.toNat) := by
  decide

theorem witness_OverlongOperandIsRefused :
    (0x10 ≤ (0x10 : BitVec 8).toNat ∧ (0x16 : BitVec 8).toNat ≤ 0x16 ∧
      65539 < (List.replicate 65540 (0 : Byte)).length) ∧
    ((0x20 : BitVec 8).toNat = 0x20 ∧ (0x22 : BitVec 8).toNat = 0x22 ∧
      65535 < (List.replicate 65536 (0 : Scalar)).length) :=
  ⟨⟨by decide, by decide, lt_length_replicate (by decide) 0⟩, by decide, by decide, lt_length_replicate (by decide) 0⟩

theorem witness_DecodeOfEncodeIsTheInstruction : wellFormed (.escape (List.replicate 65539 0x7E)) = true :=
  (dataFits_replicate 65539 0x7E).trans (by decide)

theorem witness_OperationReadsOnlyItsNamedFields :
    ∃ x y : OpFields, x ≠ y ∧ x.op = y.op ∧ x.op = 0x22 ∧ x.m = y.m ∧ x.a = y.a ∧ x.v = y.v ∧ x.s = y.s ∧ x.f = y.f ∧
      x.b ≠ y.b ∧ x.d ≠ y.d :=
  ⟨{ op := 0x22, b := 1, m := 0x4E49 }, { op := 0x22, b := 2, m := 0x4E49, d := [0] }, by decide⟩

theorem witness_UnescapeRunsTheStateMachine :
    ([0x7D, 0x5E, 0x00, 0x7D] : Bytes).foldl (fun (acc : Bool × Bytes) b =>
      if acc.1 then (false, acc.2 ++ [b ^^^ 0x20]) else if b = 0x7D then (true, acc.2) else (false, acc.2 ++ [b]))
      (false, []) = (true, [0x7E, 0x00]) := by decide

theorem witness_EscapedOutputProperties :
    (0x5E : Byte) ∈ esc [0x7E] ∧ (esc [0x01, 0x13])[1]? = some (0x7D : Byte) := by decide

theorem witness_ChkValidateChecksTheSumFromOffsetThree :
    ([0x7E, 0x00, 0x00] : Bytes).length < 4 ∧
    (4 ≤ ([0x7E, 0x00, 0x00, 0xFF] : Bytes).length ∧
      ((([0x7E, 0x00, 0x00, 0xFF] : Bytes).drop 3).map BitVec.toNat).sum % 256 = 0xFF) ∧
    (4 ≤ ([0x7E, 0x00, 0x00, 0xFE] : Bytes).length ∧
      ((([0x7E, 0x00, 0x00, 0xFE] : Bytes).drop 3).map BitVec.toNat).sum % 256 ≠ 0xFF) := by decide

/-- One changed byte at the first and at the last offset the statement covers. -/
theorem witness_ValidationAcceptsFramesAndDetectsOneByteErrors :
    ([0x08, 0x01] : Bytes).length ≤ 65535 ∧ (frame [0x08, 0x01])[3]? = some (0x08 : Byte) ∧
    (frame [0x08, 0x01])[5]? = some (0xF6 : Byte) ∧ (0x09 : Byte) ≠ 0x08 ∧ (0x00 : Byte) ≠ 0xF6 := by decide

theorem witness_LenFromPayloadIsBigEndian :
    (List.replicate 65535 (0 : Byte)).length ≤ 65535 ∧ 65535 < (List.replicate 65536 (0 : Byte)).length :=
  ⟨length_replicate_le _ _, lt_length_replicate (by decide) 0⟩

theorem witness_LenFromRawReadsOffsetsOneAndTwo :
    ([0x55, 0xFF, 0xFE] : Bytes)[1]? = some 0xFF ∧ ([0x55, 0xFF, 0xFE] : Bytes)[2]? = some 0xFE ∧
    ([0x7E, 0x00] : Bytes).length < 3 := by decide

theorem witness_FrameLayoutByOffset : (List.replicate 65535 (0x10 : Byte)).length ≤ 65535 :=
  length_replicate_le _ _

theorem witness_FrameEncodeBuildsTheWireBytes :
    ([] : Bytes) = [] ∧ 65535 < (List.replicate 65536 (0 : Byte)).length ∧
    (([0x81] : Bytes) ≠ [] ∧ ([0x81] : Bytes).length ≤ 65535 ∧
      256 * (0x00 : Byte).toNat + (0x01 : Byte).toNat = ([0x81] : Bytes).length ∧
      (0x7E : Byte).toNat = 0xFF - (([0x81] : Bytes).map BitVec.toNat).sum % 256) := by
  exact ⟨rfl, lt_length_replicate (by decide) 0, by decide⟩

theorem witness_WireBytesLengthAndContent : ([0x81] : Bytes) ≠ [] ∧ ([0x81] : Bytes).length ≤ 65535 := by decide

theorem witness_PushWhileAResultIsHeldIsBusy :
    (holding .complete [0x7E, 0x00, 0x00, 0xFF] 0xFF false).rxState = .complete ∧
    (holding .cksumErr [] 0 false).rxState = .cksumErr := ⟨rfl, rfl⟩

theorem witness_PushedEscapeByteIsHeldNotCounted :
    (acceptsPush ready ∧ ready.escPending = false) ∧
    (acceptsPush (holding .accum [0x7E, 0x00] 0 false) ∧ (holding .accum [0x7E, 0x00] 0 false).escPending = false) :=
  ⟨⟨.inl rfl, rfl⟩, ⟨.inr rfl, rfl⟩⟩

/-- The last length the first clause covers, and the first the second does, there with an escape byte pending. -/
theorem witness_PushAppendsTheUnescapedByte :
    (Inv (holding .accum [0x7E, 0x00] 0 false) ∧ acceptsPush (holding .accum [0x7E, 0x00] 0 false) ∧
      ((holding .accum [0x7E, 0x00] 0 false).escPending = false ∧ (0x01 : Byte) ≠ 0x7D) ∧
      (holding .accum [0x7E, 0x00] 0 false).len.toNat < 3) ∧
    (Inv (holding .accum [0x7E, 0x00, 0x01] 0 true) ∧ acceptsPush (holding .accum [0x7E, 0x00, 0x01] 0 true) ∧
      ((holding .accum [0x7E, 0x00, 0x01] 0 true).escPending = true ∧ (0x7D : Byte) = 0x5D ^^^ 0x20) ∧
      Memory.read (holding .accum [0x7E, 0x00, 0x01] 0 true).buf 1 = some 0x00 ∧
      Memory.read (holding .accum [0x7E, 0x00, 0x01] 0 true).buf 2 = some 0x01 ∧
      (holding .accum [0x7E, 0x00, 0x01] 0 true).len.toNat + 1 ≠ 256 * (0x00 : Byte).toNat + (0x01 : Byte).toNat + 4) :=
  ⟨⟨inv_two, .inr rfl, by decide, by decide⟩, ⟨inv_three, .inr rfl, by decide, by decide, by decide, by decide⟩⟩

/-- The frame of length 4, with the byte that makes the sum 0xFF and with one that does not. -/
theorem witness_CompletingPushHoldsOrDiscardsTheFrame :
    Inv (holding .accum [0x7E, 0x00, 0x00] 0 false) ∧ acceptsPush (holding .accum [0x7E, 0x00, 0x00] 0 false) ∧
    ((holding .accum [0x7E, 0x00, 0x00] 0 false).escPending = false ∧ (0xFF : Byte) ≠ 0x7D ∧ (0xFE : Byte) ≠ 0x7D) ∧
    3 ≤ (holding .accum [0x7E, 0x00, 0x00] 0 false).len.toNat ∧
    Memory.read (holding .accum [0x7E, 0x00, 0x00] 0 false).buf 1 = some 0x00 ∧
    Memory.read (holding .accum [0x7E, 0x00, 0x00] 0 false).buf 2 = some 0x00 ∧
    (holding .accum [0x7E, 0x00, 0x00] 0 false).len.toNat + 1 = 256 * (0x00 : Byte).toNat + (0x00 : Byte).toNat + 4 ∧
    (holding .accum [0x7E, 0x00, 0x00] 0 false).csum + 0xFF = 0xFF ∧
    (holding .accum [0x7E, 0x00, 0x00] 0 false).csum + 0xFE ≠ 0xFF :=
  ⟨inv_before_last, .inr rfl, by decide, by decide, by decide, by decide, by decide, by decide, by decide⟩

theorem witness_RxTakeReturnsTheResultAndEmpties :
    (Inv (holding .complete [0x7E, 0x00, 0x00, 0xFF] 0xFF false) ∧
      (holding .complete [0x7E, 0x00, 0x00, 0xFF] 0xFF false).rxState = .complete) ∧
    (Inv (holding .cksumErr [] 0 false) ∧ (holding .cksumErr [] 0 false).rxState = .cksumErr) ∧
    (Inv ready ∧ ready.rxState = .empty) ∧
    (Inv (holding .accum [0x7E, 0x00] 0 false) ∧ (holding .accum [0x7E, 0x00] 0 false).rxState = .accum) :=
  ⟨⟨inv_complete, rfl⟩, ⟨inv_cksumErr, rfl⟩, ⟨inv_ready, rfl⟩, ⟨inv_two, rfl⟩⟩

/-- The invariant holds in a state of each of the four kinds. -/
theorem witness_StateTransitionTable :
    Inv ready ∧ Inv (holding .accum [0x7E, 0x00] 0 false) ∧ Inv (holding .complete [0x7E, 0x00, 0x00, 0xFF] 0xFF false) ∧
    Inv (holding .cksumErr [] 0 false) := ⟨inv_ready, inv_two, inv_complete, inv_cksumErr⟩

theorem witness_RxDoneLevelFollowsTheResult :
    Inv ready ∧ acceptsPush ready ∧ ∃ t, exec (.rxPush 0x7E) ready = .next t := ⟨inv_ready, .inl rfl, _, rfl⟩

/-- Both clauses: three bytes held, and a frame that is one byte short, each with an escape byte pending. -/
theorem witness_AccumulatorHoldsWhatWasPushedUnescaped :
    Inv ready ∧ ready.rxState = .empty ∧ ([0x7E, 0x00, 0x06, 0x7D] : Bytes) ≠ [] ∧
    (unescFrom false [0x7E, 0x00, 0x06, 0x7D]).2.length ≤ 3 ∧
    (unescFrom false [0x7E, 0x00, 0x01, 0x08, 0x7D]).2.length <
      declaredLength (unescFrom false [0x7E, 0x00, 0x01, 0x08, 0x7D]).2 + 4 :=
  ⟨inv_ready, rfl, by decide, by decide, by decide⟩

theorem witness_PushingWireBytesDeliversTheFrame :
    Inv ready ∧ ready.rxState = .empty ∧ ([] : Bytes).length ≤ 65535 ∧ (List.replicate 65535 (0 : Byte)).length ≤ 65535 ∧
    0 < (wire []).length := ⟨inv_ready, rfl, by decide, length_replicate_le _ _, by decide⟩

theorem witness_ReadFrameReturnsTheFrameAndLeavesTheRest :
    Inv (holding .accum [0x7E, 0x00, 0x01] 0 true) ∧ ([0x08, 0x7E] : Bytes).length ≤ 65535 := ⟨inv_three, by decide⟩

theorem witness_CmdDecodeFindsExactlyTheRows :
    ready.cmdTable.rows[0]? = some rowNI ∧ ready.cmdTable.rows[3]? = some (rowBH 0) ∧
    ∀ r ∈ ready.cmdTable.rows, r.mnem ≠ 0x5858 := by decide

theorem witness_ReadAndQueryEncodeToTheMnemonicAlone :
    (rowNI ∈ ready.cmdTable.rows ∧ rowNI.kind ≠ .query) ∧
    ((⟨0x5151, .query⟩ : CmdRow) ∈ ready.cmdTable.rows) := by decide

/-- The largest value that fits the parameter and the smallest that does not. -/
theorem witness_NumericWriteIsClampedBigEndian :
    rowSC 0xFFFF ∈ ready.cmdTable.rows ∧ (rowSC 0xFFFF).kind = .num .two 0x0001 0xFFFF ∧
    (0xFFFF : BitVec 32).toNat < 2 ^ (8 * ParamWidth.two.bytes) ∧
    2 ^ (8 * ParamWidth.two.bytes) ≤ (0x10000 : BitVec 32).toNat := by decide

/-- Both clauses at the ends of the surrogates and at 0x10FFFF. -/
theorem witness_StringWriteIsTruncatedUtf8 :
    rowNI ∈ ready.cmdTable.rows ∧ rowNI.kind = .str 20 ∧
    (∀ c ∈ ([0xD7FF, 0xE000, 0x10FFFF] : List Scalar), c.toNat ≤ 0x10FFFF ∧ (c.toNat < 0xD800 ∨ 0xDFFF < c.toNat)) ∧
    (∀ c ∈ ([0xD800, 0xDFFF, 0x110000] : List Scalar), 0x10FFFF < c.toNat ∨ (0xD800 ≤ c.toNat ∧ c.toNat ≤ 0xDFFF)) :=
  ⟨by decide, rfl, by simp, by simp⟩

/-- Each range of R157 at both ends. -/
theorem witness_Utf8BytesOfEveryScalarValue :
    ∀ c ∈ ([0x00, 0x7F, 0x80, 0x7FF, 0x800, 0xD7FF, 0xE000, 0xFFFF, 0x10000, 0x10FFFF] : List Scalar),
      c.toNat ≤ 0x10FFFF ∧ (c.toNat < 0xD800 ∨ 0xDFFF < c.toNat) := by simp

theorem witness_IllegalActionsAndUnknownMnemonics :
    (rowNI ∈ ready.cmdTable.rows ∧
      ¬ ((rowNI.kind = .query ∧ Action.none = .none) ∨
        (rowNI.kind ≠ .query ∧ (Action.none = .read ∨ Action.none = .write)))) ∧
    (⟨0x5151, .query⟩ ∈ ready.cmdTable.rows ∧
      ¬ ((CmdKind.query = .query ∧ Action.read = .none) ∨
        (CmdKind.query ≠ .query ∧ (Action.read = .read ∨ Action.read = .write)))) ∧
    (∀ r ∈ ready.cmdTable.rows, r.mnem ≠ 0x5858) := by decide

theorem witness_EveryEncodingStartsWithItsMnemonic :
    ∃ t r, exec (.cmdEncode 0x4E49 .read 0 []) ready = .next t ∧ t.resp = some r ∧ r.st = .ok := ⟨_, _, rfl, rfl, rfl⟩

/-- A table whose row "LS" takes strings of 65535 characters. -/
def wideTable : CmdTable := ⟨[rowNI, rowSC 1, rowBH 0, ⟨0x4C53, .str 65535⟩], by decide⟩

theorem encodeCommand_str (t : CmdTable) {m : Mnemonic} {i maxlen : Nat} {str : List Scalar}
    (h : lookup t m = some (i, ⟨m, .str maxlen⟩)) (v : BitVec 32) (ha : str.all scalarOk = true) :
    encodeCommand t m .write v str = .ok (mnemonicBytes m ++ (str.take maxlen).flatMap utf8) := by
  simp [encodeCommand, h, actionLegal, commandParam, stringParam, ha]

/-- Each clause: a command that fits a frame, one that does not, and one that is not encoded. -/
theorem witness_AtEncodeWrapsTheEncodedCommand :
    encodeCommand table 0x4E49 .read 0 [] = .ok [0x4E, 0x49] ∧
    (∃ c, encodeCommand wideTable 0x4C53 .write 0 (List.replicate 65535 0x41) = .ok c ∧ 65535 < c.length + 2) ∧
    encodeCommand table 0x5858 .read 0 [] = .error .noMatch := by
  refine ⟨rfl, ?_, rfl⟩
  have hk : lookup wideTable 0x4C53 = some (3, ⟨0x4C53, .str 65535⟩) := by decide
  have ha := List.all_replicate (f := scalarOk) (n := 65535) (a := 0x41)
  have hl : (List.replicate 65535 (0x41 : Scalar)).length = 65535 := List.length_replicate
  have hu : ∀ c ∈ List.replicate 65535 (0x41 : Scalar), (utf8 c).length = 1 := fun c hc =>
    (List.eq_of_mem_replicate hc).symm ▸ (by decide)
  generalize List.replicate 65535 (0x41 : Scalar) = str at *
  refine ⟨_, encodeCommand_str wideTable hk 0 (ha.trans (by decide)), ?_⟩
  have hs : (str.map fun _ => 1).sum = str.length := by simp
  rw [List.length_append, List.take_of_length_le hl.le, List.length_flatMap, List.map_congr_left hu, hs, hl]
  decide

theorem witness_AtRequestOfAReadIsTypeIdMnemonic : rowBH 0 ∈ ready.cmdTable.rows ∧ (rowBH 0).kind ≠ .query := by decide

theorem witness_StepKeepsTheInvariant :
    Inv ready ∧ ∃ t, step (issueNext ready (.op { op := 0x02, b := 0x7D })) = .next t := ⟨inv_ready, _, rfl⟩

theorem witness_PureOperationsReadAndWriteNoState :
    isReceiveOp (.escape [0x7E]) = false ∧ ready.cmdTable = (holding .accum [0x7E, 0x00] 0 false).cmdTable := ⟨rfl, rfl⟩

theorem witness_EveryOperationReturnsAStatus : Inv ready := inv_ready

/-- The invariant, and the one reason a step that meets it can be refused for. -/
theorem witness_NoStepFaults :
    Inv (issueNext ready (.op { op := 0x10, d := List.replicate 65540 0 })) ∧
    step (issueNext ready (.op { op := 0x10, d := List.replicate 65540 0 })) = .refused .operandTooLong := by
  have hd := (dataFits_replicate 65540 0).trans (by decide : _ = false)
  generalize List.replicate 65540 (0 : Byte) = d at *
  refine ⟨⟨inv_ready.bufCanonical, inv_ready.bufInside, inv_ready.lenInside, inv_ready.held⟩, ?_⟩
  simp [step, issueNext, takeIssued, decode, decodeFields, decodeOp, opMap, List.find?, withData, hd, rejectRequest]

/-- Each of the three cases: no change, the discarding push, the take that reports a mismatch. -/
theorem witness_ErrorsChangeOnlyWhatTheirRuleNames :
    (∃ t r, exec .rxTake ready = .next t ∧ t.resp = some r ∧ r.st ≠ .ok) ∧
    (∃ t r, exec (.rxPush 0xFE) (holding .accum [0x7E, 0x00, 0x00] 0 false) = .next t ∧ t.resp = some r ∧
      r.st = .checksumMismatch) ∧
    (∃ t r, exec .rxTake (holding .cksumErr [] 0 false) = .next t ∧ t.resp = some r ∧ r.st = .checksumMismatch) :=
  ⟨⟨_, _, rfl, rfl, by decide⟩, ⟨_, _, rfl, rfl, rfl⟩, ⟨_, _, rfl, rfl, rfl⟩⟩

theorem witness_CommandTableNeverChanges : ∃ t, step (issueNext ready (.op { op := 0x01 })) = .next t := ⟨_, rfl⟩

theorem witness_StatusesAreThoseListedForTheOperation :
    ∃ t r, exec (.chkCompute [0x01]) ready = .next t ∧ t.resp = some r := ⟨_, _, rfl, rfl⟩

theorem witness_OutputsAreThoseListedForTheOperation :
    (∃ t r, exec (.unescape [0x7D]) ready = .next t ∧ t.resp = some r ∧ r.st = .ok) ∧
    (∃ t r, exec (.lenFromRaw []) ready = .next t ∧ t.resp = some r ∧ r.st ≠ .ok) :=
  ⟨⟨_, _, rfl, rfl, rfl⟩, ⟨_, _, rfl, rfl, by decide⟩⟩

theorem witness_OnlyAPushWritesOneByteOfTheBuffer :
    (∃ t, exec .rxStart (holding .accum [0x7E, 0x00] 0 false) = .next t) ∧
    (∃ t, exec (.rxPush 0x01) (holding .accum [0x7E, 0x00] 0 false) = .next t) := ⟨⟨_, rfl⟩, ⟨_, rfl⟩⟩

/-- The first offset above `len` and the last of the buffer, holding other bytes. -/
theorem witness_BytesAtLenAndAboveAreNeverRead :
    Inv (holding .accum [0x7E, 0x00] 0 false) ∧
    Inv { holding .accum [0x7E, 0x00] 0 false with buf := [(0, 0x7E), (2, 0x55), (65538, 0x01)] } ∧
    (∀ a < (holding .accum [0x7E, 0x00] 0 false).len.toNat, Memory.read [(0, 0x7E), (2, 0x55), (65538, 0x01)] a =
      Memory.read (holding .accum [0x7E, 0x00] 0 false).buf a) :=
  ⟨inv_two, ⟨by decide, by decide, by decide, [0x7E, 0x00], by decide, by decide, .inl (by decide), .inl (by decide)⟩,
    by decide⟩

theorem witness_PushKeepsTheUnescapedHistory :
    Inv (holding .accum [0x7E, 0x00, 0x01] 0 true) ∧ acceptsPush (holding .accum [0x7E, 0x00, 0x01] 0 true) ∧
    heldBytes (holding .accum [0x7E, 0x00, 0x01] 0 true) = some (unescFrom false [0x7E, 0x00, 0x01, 0x7D]).2 ∧
    (holding .accum [0x7E, 0x00, 0x01] 0 true).escPending = (unescFrom false [0x7E, 0x00, 0x01, 0x7D]).1 :=
  ⟨inv_three, .inr rfl, by decide, by decide⟩

/-- Both ends of the buffer and the first offset it does not have; a write of 0x00 leaves no entry. -/
theorem witness_EveryOffsetOfTheBufferHoldsOneByte :
    Memory.wf [(0, 0x7E), (65538, 0x01)] = true ∧ Memory.read [(0, 0x7E), (65538, 0x01)] 65538 = some 0x01 ∧
    Memory.read [(0, 0x7E), (65538, 0x01)] 1 = some 0x00 ∧ Memory.read [(0, 0x7E), (65538, 0x01)] 65539 = none ∧
    Memory.write [(0, 0x7E), (65538, 0x01)] 65538 0x00 = [(0, 0x7E)] := by decide

/-- R40, U8: a take of offsets that nothing has written gives a byte for each. -/
theorem test_take_of_unwritten_buffer :
    (returned (exec .rxTake { ready with rxState := .complete, len := 2 })).map
      (fun r => (r.st, r.out.map List.length)) = some (.ok, some 2) := by decide

end Sys2Proof.Tests
end

/-! PROOFS. 00_scope.md rule R14: from a state with the invariant every instruction ends in an answer to the host,
from a state that has the invariant again. -/

namespace Sys2Proof.Machine

/-! ### The part of the invariant that every state of the accumulator shares -/

/-- `bytes` is `buf[0..len-1]`, in a buffer of the right form, and `csum` is its running checksum: what `Inv` says
apart from the state of the accumulator (R25, R26, R40). -/
structure BufferHolds (s : State) (bytes : Bytes) : Prop where
  bufCanonical : Memory.wf s.buf = true
  bufInside : ∀ c ∈ s.buf, c.1 < Config.bufCap
  lenInside : s.len.toNat ≤ Config.bufCap
  held : heldBytes s = some bytes
  csum : s.csum = sum8 (bytes.drop 3)

theorem inv_iff (s : State) : Inv s ↔ ∃ bytes, BufferHolds s bytes ∧ PhaseHolds s bytes := by
  constructor
  · rintro ⟨hw, hi, hl, bytes, hb, hc, hp⟩
    exact ⟨bytes, ⟨hw, hi, hl, hb, hc⟩, hp⟩
  · rintro ⟨bytes, ⟨hw, hi, hl, hb, hc⟩, hp⟩
    exact ⟨hw, hi, hl, bytes, hb, hc, hp⟩

/-- The invariant speaks of the accumulator and the buffer alone: not of what was returned (R28). -/
theorem Inv.respond {s : State} (h : Inv s) (r : Response) : Inv (respond s r) :=
  ⟨h.bufCanonical, h.bufInside, h.lenInside, h.held⟩

/-- The invariant speaks of the accumulator and the buffer alone: not of what is still to come. -/
theorem Inv.withIssued {s : State} (h : Inv s) (rest : List Request) : Inv { s with issued := rest } :=
  ⟨h.bufCanonical, h.bufInside, h.lenInside, h.held⟩

theorem BufferHolds.acceptRaw {s : State} {bytes : Bytes} (h : BufferHolds s bytes) (p : Bool) :
    BufferHolds (acceptRaw s p) bytes := ⟨h.bufCanonical, h.bufInside, h.lenInside, h.held, h.csum⟩

theorem BufferHolds.holdFrame {s : State} {bytes : Bytes} (h : BufferHolds s bytes) :
    BufferHolds (holdFrame s) bytes := ⟨h.bufCanonical, h.bufInside, h.lenInside, h.held, h.csum⟩

/-- An append inside the buffer holds one byte more (R124). -/
theorem BufferHolds.appended {s : State} {bytes : Bytes} (h : BufferHolds s bytes) (d : Byte)
    (hl : s.len.toNat < Config.bufCap) : BufferHolds (appended s d) (bytes ++ [d]) where
  bufCanonical := Memory.wf_write _ _ _ h.bufCanonical
  bufInside := Memory.inside_write _ _ _ _ hl h.bufInside
  lenInside := by rw [appended_len, len_add_one_toNat s hl]; exact hl
  held := heldBytes_appended s bytes d h.bufCanonical h.held hl
  csum := appended_csum_eq_sum8 s bytes d h.held h.csum

/-- A state that holds no byte and no escape byte has the invariant, whatever the buffer holds (R30, R130). -/
theorem inv_of_cleared (s : State) (hrx : s.rxState = .empty ∨ s.rxState = .cksumErr) (hw : Memory.wf s.buf = true)
    (hi : ∀ c ∈ s.buf, c.1 < Config.bufCap) (hl : s.len = 0) (he : s.escPending = false) (hc : s.csum = 0) :
    Inv s := by
  refine ⟨hw, hi, by simp [hl], [], by simp [heldBytes, hl], hc, ?_⟩
  rcases hrx with hrx | hrx <;> simp [PhaseHolds, hrx, hl, he, hc]

/-! ### The declared length -/

/-- Two bytes declare at most `MAX_PAYLOAD` (R6, R45). -/
theorem declaredLength_le (held : Bytes) : declaredLength held ≤ Config.maxPayload := by
  simp only [declaredLength, lengthOfPair, Config.maxPayload]
  omega

/-- Once three bytes are held, an append leaves the declared length as it was. -/
theorem declaredLength_append (held : Bytes) (d : Byte) (h : 3 ≤ held.length) :
    declaredLength (held ++ [d]) = declaredLength held := by
  simp only [declaredLength, List.getD_append _ _ _ _ (show 1 < held.length by omega),
    List.getD_append _ _ _ _ (show 2 < held.length by omega)]

/-- While no result is held, the frame is not complete (R30). -/
theorem PhaseHolds.incomplete {s : State} {bytes : Bytes} (h : PhaseHolds s bytes) (ha : acceptsPush s) :
    s.len.toNat ≤ 3 ∨ s.len.toNat < declaredLength bytes + overhead := by
  rcases ha with ha | ha
  · simp only [PhaseHolds, ha] at h
    exact .inl (by simp [h.1])
  · simp only [PhaseHolds, ha] at h
    exact h.1

/-- While no result is held, the buffer has room for a byte: a frame ends at `MAX_PAYLOAD + 4` bytes (R40, D11). -/
theorem PhaseHolds.len_lt_bufCap {s : State} {bytes : Bytes} (h : PhaseHolds s bytes) (ha : acceptsPush s) :
    s.len.toNat < Config.bufCap := by
  have hinc := h.incomplete ha
  have hdecl := declaredLength_le bytes
  simp only [Config.bufCap, Config.maxPayload, overhead] at *
  omega

/-! ### Each operation ends in an answer from a state with the invariant -/

/-- After an append to a frame that was not complete: it is still not complete, or it is held, or it is discarded
(R125, R126). -/
theorem finishPush_answers (s : State) (bytes : Bytes) (h : BufferHolds s bytes) (hrx : s.rxState = .accum)
    (he : s.escPending = false) (hne : s.len ≠ 0)
    (hle : s.len.toNat ≤ 3 ∨ s.len.toNat ≤ declaredLength bytes + overhead) :
    ∃ u r, finishPush s = answer u r ∧ Inv u := by
  have hfc := frameComplete_of_held s bytes h.held
  unfold finishPush
  by_cases hdone : 3 < s.len.toNat ∧ s.len.toNat = declaredLength bytes + overhead
  · rw [if_pos (by simpa [hfc] using hdone)]
    by_cases hc : s.csum = 0xFF
    · rw [if_pos hc]
      exact ⟨_, _, rfl, (inv_iff _).mpr ⟨bytes, h.holdFrame, hdone.2, he, hc⟩⟩
    · rw [if_neg hc]
      exact ⟨_, _, rfl, inv_of_cleared _ (.inr rfl) h.bufCanonical h.bufInside rfl he rfl⟩
  · rw [if_neg (by simpa [hfc] using hdone)]
    refine ⟨_, _, rfl, (inv_iff _).mpr ⟨bytes, h, ?_⟩⟩
    simp only [PhaseHolds, hrx]
    exact ⟨by omega, .inl hne⟩

/-- A push that is accepted holds an escape byte or appends a byte, for which the buffer has room (R122 to R124). -/
theorem acceptPush_answers (b : Byte) (s : State) (h : Inv s) (ha : acceptsPush s) :
    ∃ u r, acceptPush b s = answer u r ∧ Inv u := by
  obtain ⟨bytes, hbuf, hphase⟩ := (inv_iff s).mp h
  have hinc := hphase.incomplete ha
  have hroom := hphase.len_lt_bufCap ha
  have hpending := unescStep_fst s.escPending b
  rcases hstep : unescStep s.escPending b with ⟨p, _ | d⟩
  · obtain rfl : p = true := by simpa [hstep] using hpending
    have hinv : Inv (acceptRaw s true) := (inv_iff _).mpr ⟨bytes, hbuf.acceptRaw true, hinc, .inr rfl⟩
    exact ⟨_, pushOk (acceptRaw s true), by simp only [acceptPush, hstep], hinv⟩
  · obtain rfl : p = false := by simpa [hstep] using hpending
    have hlen : (s.len + 1).toNat = s.len.toNat + 1 := len_add_one_toNat s hroom
    rw [acceptPush_append s b d false hstep hroom]
    refine finishPush_answers _ _ ((hbuf.acceptRaw false).appended d hroom) rfl rfl ?_ ?_
    · intro h0
      rw [show s.len + 1 = 0 from h0] at hlen
      simp at hlen
    · rw [appended_len, acceptRaw_len, hlen]
      by_cases h3 : s.len.toNat < 3
      · exact .inl h3
      · have hdecl := declaredLength_append bytes d (by rw [heldBytes_length s bytes hbuf.held]; omega)
        simp only [overhead] at *
        omega

theorem execRxPush_answers (b : Byte) (s : State) (h : Inv s) : ∃ u r, execRxPush b s = answer u r ∧ Inv u := by
  unfold execRxPush
  split
  case h_1 hrx => exact acceptPush_answers b s h (.inl hrx)
  case h_2 hrx => exact acceptPush_answers b s h (.inr hrx)
  case h_3 => exact ⟨_, _, rfl, h⟩
  case h_4 => exact ⟨_, _, rfl, h⟩

theorem execRxStart_answers (s : State) (h : Inv s) : ∃ u r, execRxStart s = answer u r ∧ Inv u :=
  ⟨_, _, rfl, inv_of_cleared _ (.inl rfl) h.bufCanonical h.bufInside rfl rfl rfl⟩

theorem execRxTake_answers (s : State) (h : Inv s) : ∃ u r, execRxTake s = answer u r ∧ Inv u := by
  obtain ⟨bytes, hbuf, hphase⟩ := (inv_iff s).mp h
  unfold execRxTake
  split
  case h_1 => exact ⟨_, _, rfl, h⟩
  case h_2 => exact ⟨_, _, rfl, h⟩
  case h_3 =>
    rw [hbuf.held]
    exact ⟨_, _, rfl, inv_of_cleared _ (.inl rfl) h.bufCanonical h.bufInside rfl rfl rfl⟩
  case h_4 hrx =>
    simp only [PhaseHolds, hrx] at hphase
    obtain ⟨hl, he, hc⟩ := hphase
    exact ⟨_, _, rfl, inv_of_cleared _ (.inl rfl) h.bufCanonical h.bufInside hl he hc⟩

/-- R14: every instruction ends in an answer from a state with the invariant. The three operations that change the
accumulator do so by their own rules; every other one answers from the state it found. -/
theorem exec_answers (i : Instr) (s : State) (h : Inv s) : ∃ u r, exec i s = answer u r ∧ Inv u := by
  cases hp : pureResponse s.cmdTable i with
  | some r => exact ⟨s, r, exec_of_pureResponse i s r hp, h⟩
  | none =>
    cases i
    case rxStart => exact execRxStart_answers s h
    case rxPush b => exact execRxPush_answers b s h
    case rxTake => exact execRxTake_answers s h
    case rxStatus => exact ⟨s, _, rfl, h⟩
    all_goals cases hp

/-- Settles O49: every instruction ends in an answer from a state with the invariant. -/
theorem everyOperationReturnsAStatus : Obligations.EveryOperationReturnsAStatus := by
  intro s i h
  obtain ⟨u, r, hexec, hu⟩ := exec_answers i s h
  exact ⟨respond u r, r, hexec, rfl, hu.respond r⟩

/-! ### One step -/

/-- A request that is no instruction is answered, or refused for an operand no field can carry (R65). -/
theorem rejectRequest_cases (e : DecodeError) (s : State) :
    rejectRequest e s = raise s .illegalOp ∨ rejectRequest e s = .refused .operandTooLong := by
  cases e
  case reservedOp => exact .inl rfl
  case dataTooLong => exact .inr rfl
  case stringTooLong => exact .inr rfl

/-- From a state with the invariant a step ends in a state with the invariant, or the operand issued is too long. -/
theorem step_next_or_operandTooLong (s : State) (h : Inv s) :
    (∃ t, step s = .next t ∧ Inv t) ∨ step s = .refused .operandTooLong := by
  obtain ⟨-, hstep⟩ | ⟨r, rest, e, -, -, hstep⟩ | ⟨r, rest, i, -, -, hstep⟩ := step_cases s
  · exact .inl ⟨s, hstep, h⟩
  · rcases rejectRequest_cases e { s with issued := rest } with hrej | hrej
    · exact .inl ⟨_, hstep.trans hrej, (h.withIssued rest).respond _⟩
    · exact .inr (hstep.trans hrej)
  · obtain ⟨u, r, hexec, hu⟩ := exec_answers i _ (h.withIssued rest)
    exact .inl ⟨_, hstep.trans hexec, hu.respond r⟩

/-- Settles O50: a step ends in a next state, or is refused for the one reason. -/
theorem noStepFaults : Obligations.NoStepFaults := by
  intro s h
  obtain ⟨t, hstep, -⟩ | hstep := step_next_or_operandTooLong s h
  · simp [hstep]
  · exact ⟨by simp [hstep], fun e he => (Host.Outcome.refused.inj (hstep.symm.trans he)).symm⟩

end Sys2Proof.Machine

/-! PROOFS. 10_state.md: the state elements at reset (R33), what every step keeps of them (R30, R32), and what no
operation sees of them (R20, R26, R28). -/

namespace Sys2Proof.Machine

/-! ### The state after reset -/

/-- Settles O1: the fields of `State.reset`, and the arm of `RX_TAKE` for EMPTY. -/
theorem resetStateIsEmptyAndUnreadable : Obligations.ResetStateIsEmptyAndUnreadable :=
  ⟨rfl, rfl, rfl, rfl, by decide, rfl⟩

/-- Settles O3: at reset nothing is held and no offset is listed. -/
theorem resetSatisfiesInvariant : Obligations.ResetSatisfiesInvariant :=
  inv_of_cleared State.reset (.inl rfl) rfl (fun _ hc => absurd hc List.not_mem_nil) rfl rfl rfl

/-! ### The invariant along a step -/

/-- Settles O48: the one next state a step from an invariant state can give is that of an answer that keeps it. -/
theorem stepKeepsTheInvariant : Obligations.StepKeepsTheInvariant := by
  intro s t h hst
  obtain ⟨u, hu, hinv⟩ | hrefused := step_next_or_operandTooLong s h
  · obtain rfl : u = t := Host.Outcome.next.inj (hu.symm.trans hst)
    exact hinv
  · cases hrefused.symm.trans hst

/-! ### The pure operations -/

/-- The four receive operations are the only ones without a response that is fixed by operands and table (R20). -/
theorem pureResponse_eq_none_iff (t : CmdTable) (i : Instr) : pureResponse t i = none ↔ isReceiveOp i = true := by
  cases i <;> simp [pureResponse, isReceiveOp]

/-- Settles O51: both states answer the response the operands and the shared table fix. -/
theorem pureOperationsReadAndWriteNoState : Obligations.PureOperationsReadAndWriteNoState := by
  intro i s s' hi htable
  have hpure : pureResponse s.cmdTable i ≠ none := by simp [pureResponse_eq_none_iff, hi]
  obtain ⟨r, hr⟩ := Option.ne_none_iff_exists'.mp hpure
  exact ⟨r, exec_of_pureResponse i s r hr, exec_of_pureResponse i s' r (htable ▸ hr)⟩

/-! ### The earlier response is not read -/

theorem finishPush_withResp (s : State) (earlier : Option Response) :
    finishPush { s with resp := earlier } = finishPush s := rfl

theorem acceptPush_withResp (b : Byte) (s : State) (earlier : Option Response) :
    acceptPush b { s with resp := earlier } = acceptPush b s := by
  rcases hstep : unescStep s.escPending b with ⟨p, _ | d⟩
  · simp only [acceptPush, hstep]
    rfl
  · by_cases hl : s.len.toNat < Config.bufCap
    · rw [acceptPush_append s b d p hstep hl, acceptPush_append { s with resp := earlier } b d p hstep hl]
      exact finishPush_withResp (appended (acceptRaw s p) d) earlier
    · simp [acceptPush, hstep, appendByte, hl]

theorem execRxPush_withResp (b : Byte) (s : State) (earlier : Option Response) :
    execRxPush b { s with resp := earlier } = execRxPush b s := by
  unfold execRxPush
  rw [acceptPush_withResp]
  rfl

/-- Settles O53: an answer replaces the response. The receive operations compute theirs from the accumulator, the push
through its append; any other operation answers what its operands and the table fix. -/
theorem noOperationReadsAnEarlierStatus : Obligations.NoOperationReadsAnEarlierStatus := by
  intro i s earlier
  cases hp : pureResponse s.cmdTable i with
  | some r => rw [exec_of_pureResponse i s r hp, exec_of_pureResponse i { s with resp := earlier } r hp]; rfl
  | none =>
    cases i
    case rxStart => rfl
    case rxPush b => exact execRxPush_withResp b s earlier
    case rxTake => rfl
    case rxStatus => rfl
    all_goals cases hp

/-! ### The command table -/

theorem finishPush_cmdTable (s t : State) (h : finishPush s = .next t) : t.cmdTable = s.cmdTable := by
  obtain ⟨-, rfl⟩ | ⟨-, -, rfl⟩ | ⟨-, -, rfl⟩ := finishPush_next s t h <;> rfl

theorem execRxPush_cmdTable (b : Byte) (s t : State) (h : execRxPush b s = .next t) : t.cmdTable = s.cmdTable := by
  obtain ⟨-, rfl⟩ | ⟨-, p, -, rfl⟩ | ⟨-, p, d, -, -, hfinish⟩ := execRxPush_next b s t h
  · rfl
  · rfl
  · exact finishPush_cmdTable (appended (acceptRaw s p) d) t hfinish

theorem execRxTake_cmdTable (s t : State) (h : execRxTake s = .next t) : t.cmdTable = s.cmdTable := by
  obtain ⟨-, rfl⟩ | ⟨-, bytes, -, rfl⟩ | ⟨-, rfl⟩ := execRxTake_next s t h <;> rfl

/-- No operation writes the command table (R32). -/
theorem exec_cmdTable (i : Instr) (s t : State) (h : exec i s = .next t) : t.cmdTable = s.cmdTable := by
  cases hp : pureResponse s.cmdTable i with
  | some r => cases (exec_of_pureResponse i s r hp).symm.trans h; rfl
  | none =>
    cases i
    case rxStart => cases h; rfl
    case rxPush b => exact execRxPush_cmdTable b s t h
    case rxTake => exact execRxTake_cmdTable s t h
    case rxStatus => cases h; rfl
    all_goals cases hp

/-- Settles O54: an idle step, a rejected request and an executed one each leave the table. -/
theorem commandTableNeverChanges : Obligations.CommandTableNeverChanges := by
  intro s t h
  obtain ⟨-, hstep⟩ | ⟨r, rest, e, -, -, hstep⟩ | ⟨r, rest, i, -, -, hstep⟩ := step_cases s
  · cases hstep.symm.trans h; rfl
  · rcases rejectRequest_cases e { s with issued := rest } with hrej | hrej
    · cases (hstep.trans hrej).symm.trans h; rfl
    · cases (hstep.trans hrej).symm.trans h
  · exact exec_cmdTable i { s with issued := rest } t (hstep.symm.trans h)

/-! ### A push and a take, state by state (R121) -/

theorem acceptsPush_or_holdsResult (s : State) : acceptsPush s ∨ s.rxState = .complete ∨ s.rxState = .cksumErr := by
  unfold acceptsPush
  cases s.rxState <;> simp

theorem execRxPush_busy (b : Byte) (s : State) (h : s.rxState = .complete ∨ s.rxState = .cksumErr) :
    execRxPush b s = answer s (pushError .busy s) := by
  rcases h with h | h <;> simp [execRxPush, h]

theorem execRxTake_notReady (s : State) (h : acceptsPush s) : execRxTake s = raise s .notReady := by
  rcases h with h | h <;> simp [execRxTake, h]

theorem execRxTake_complete (s : State) (bytes : Bytes) (h : s.rxState = .complete) (hb : heldBytes s = some bytes) :
    execRxTake s = answer (clearAccumulator s) (okOut bytes) := by
  simp [execRxTake, h, hb]

theorem execRxTake_cksumErr (s : State) (h : s.rxState = .cksumErr) :
    execRxTake s = raise { s with rxState := .empty } .checksumMismatch := by
  simp [execRxTake, h]

/-! ### Bytes at `len` and above -/

/-- `other` holds the bytes of the buffer of `s` at every offset below `len` (R26). -/
def AgreesBelowLen (s : State) (other : Memory) : Prop :=
  ∀ a < s.len.toNat, Memory.read other a = Memory.read s.buf a

/-- Two next states that differ in the buffer alone, and there only at `len` and above. -/
def EndAlike (o o' : Host.Outcome State Fault Refusal) : Prop :=
  ∃ (t : State) (other : Memory), o = .next t ∧ o' = .next { t with buf := other } ∧ AgreesBelowLen t other

theorem answer_endAlike (s : State) (other : Memory) (r : Response) (h : AgreesBelowLen s other) :
    EndAlike (answer s r) (answer { s with buf := other } r) := ⟨respond s r, other, rfl, rfl, h⟩

theorem agreesBelowLen_of_len_zero (s : State) (other : Memory) (h : s.len = 0) : AgreesBelowLen s other :=
  fun a ha => absurd ha (by simp [h])

theorem heldBytes_withBuf (s : State) (other : Memory) (h : AgreesBelowLen s other) :
    heldBytes { s with buf := other } = heldBytes s :=
  Memory.readRange_congr _ _ _ _ fun k hk => by simpa using h k hk

/-- The completeness check reads offsets 1 and 2 only once `len` is above them (R125). -/
theorem frameComplete_withBuf (s : State) (other : Memory) (hl : s.len.toNat ≤ Config.bufCap)
    (h : AgreesBelowLen s other) : frameComplete { s with buf := other } = frameComplete s := by
  obtain ⟨bytes, hb⟩ := heldBytes_inside s hl
  rw [frameComplete_of_held s bytes hb,
    frameComplete_of_held { s with buf := other } bytes ((heldBytes_withBuf s other h).trans hb)]

/-- An append of the same byte to two buffers that agree below `len` makes them agree at `len` too (R124). -/
theorem AgreesBelowLen.appended {s : State} {other : Memory} (h : AgreesBelowLen s other) (d : Byte)
    (hw : Memory.wf s.buf = true) (hw' : Memory.wf other = true) (hl : s.len.toNat < Config.bufCap) :
    AgreesBelowLen (appended s d) (Memory.write other s.len.toNat d) := by
  intro a ha
  rw [appended_len, len_add_one_toNat s hl] at ha
  rw [appended_buf]
  by_cases hal : a = s.len.toNat
  · rw [hal, Memory.read_write_self _ _ _ hw hl, Memory.read_write_self _ _ _ hw' hl]
  · rw [Memory.read_write_of_ne _ _ _ _ hal, Memory.read_write_of_ne _ _ _ _ hal]
    exact h a (by omega)

theorem finishPush_endAlike (s : State) (other : Memory) (hl : s.len.toNat ≤ Config.bufCap)
    (h : AgreesBelowLen s other) : EndAlike (finishPush s) (finishPush { s with buf := other }) := by
  unfold finishPush
  rw [frameComplete_withBuf s other hl h]
  by_cases hdone : frameComplete s = true
  · rw [if_pos hdone, if_pos hdone]
    by_cases hc : s.csum = 0xFF
    · rw [if_pos hc, if_pos hc]
      exact answer_endAlike (holdFrame s) other _ h
    · rw [if_neg hc, if_neg hc]
      exact answer_endAlike (discardFrame s) other _ (agreesBelowLen_of_len_zero _ other rfl)
  · rw [if_neg hdone, if_neg hdone]
    exact answer_endAlike s other _ h

theorem acceptPush_endAlike (b : Byte) (s : State) (other : Memory) (hw : Memory.wf s.buf = true)
    (hw' : Memory.wf other = true) (hroom : s.len.toNat < Config.bufCap) (h : AgreesBelowLen s other) :
    EndAlike (acceptPush b s) (acceptPush b { s with buf := other }) := by
  rcases hstep : unescStep s.escPending b with ⟨p, _ | d⟩
  · simp only [acceptPush, hstep]
    exact answer_endAlike (acceptRaw s p) other _ h
  · rw [acceptPush_append s b d p hstep hroom, acceptPush_append { s with buf := other } b d p hstep hroom]
    refine finishPush_endAlike (appended (acceptRaw s p) d) _ ?_ ?_
    · rw [appended_len, acceptRaw_len, len_add_one_toNat s hroom]
      exact hroom
    · exact AgreesBelowLen.appended (s := acceptRaw s p) h d hw hw' hroom

theorem execRxPush_endAlike (b : Byte) (s : State) (other : Memory) (hinv : Inv s) (hw' : Memory.wf other = true)
    (h : AgreesBelowLen s other) : EndAlike (execRxPush b s) (execRxPush b { s with buf := other }) := by
  rcases acceptsPush_or_holdsResult s with ha | hr
  · obtain ⟨bytes, -, hphase⟩ := (inv_iff s).mp hinv
    rw [execRxPush_accepts b s ha, execRxPush_accepts b { s with buf := other } ha]
    exact acceptPush_endAlike b s other hinv.bufCanonical hw' (hphase.len_lt_bufCap ha) h
  · rw [execRxPush_busy b s hr, execRxPush_busy b { s with buf := other } hr]
    exact answer_endAlike s other _ h

theorem execRxTake_endAlike (s : State) (other : Memory) (hl : s.len.toNat ≤ Config.bufCap)
    (h : AgreesBelowLen s other) : EndAlike (execRxTake s) (execRxTake { s with buf := other }) := by
  obtain ⟨bytes, hb⟩ := heldBytes_inside s hl
  have hb' : heldBytes { s with buf := other } = some bytes := (heldBytes_withBuf s other h).trans hb
  rcases acceptsPush_or_holdsResult s with ha | hrx | hrx
  · rw [execRxTake_notReady s ha, execRxTake_notReady { s with buf := other } ha]
    exact answer_endAlike s other _ h
  · rw [execRxTake_complete s bytes hrx hb, execRxTake_complete { s with buf := other } bytes hrx hb']
    exact answer_endAlike (clearAccumulator s) other _ (agreesBelowLen_of_len_zero _ other rfl)
  · rw [execRxTake_cksumErr s hrx, execRxTake_cksumErr { s with buf := other } hrx]
    exact answer_endAlike { s with rxState := .empty } other _ h

/-- Settles O58: a take reads the bytes below `len`, a push the length field below it, and no other operation reads
the buffer. -/
theorem bytesAtLenAndAboveAreNeverRead : Obligations.BytesAtLenAndAboveAreNeverRead := by
  intro i s other hinv hinv' h
  change EndAlike (exec i s) (exec i { s with buf := other })
  cases hp : pureResponse s.cmdTable i with
  | some r =>
    rw [exec_of_pureResponse i s r hp, exec_of_pureResponse i { s with buf := other } r hp]
    exact answer_endAlike s other r h
  | none =>
    cases i
    case rxStart => exact answer_endAlike (clearAccumulator s) other _ (agreesBelowLen_of_len_zero _ other rfl)
    case rxPush b => exact execRxPush_endAlike b s other hinv hinv'.bufCanonical h
    case rxTake => exact execRxTake_endAlike s other hinv.lenInside h
    case rxStatus => exact answer_endAlike s other _ h
    all_goals cases hp

end Sys2Proof.Machine

/-! PROOFS. 20_memory.md: the offsets of the receive buffer and what writes them (R40, R42), the layout of a frame (R47)
and of its bytes on the wire (R49), and the order of issue (R50). -/

namespace Sys2Proof.Machine

/-! ### The order of issue (R50) -/

/-- Settles O4: the step takes `r` from the list, and the decoder answers `i` for it. -/
theorem stepRunsTheDecodedInstruction : Obligations.StepRunsTheDecodedInstruction := by
  intro s r rest i hissued hdecode
  simp only [step, takeIssued_cons s r rest hissued, hdecode]

/-! ### The offsets of the buffer (R40, R42) -/

/-- Settles O60: the laws of one read and one write of a byte. -/
theorem everyOffsetOfTheBufferHoldsOneByte : Obligations.EveryOffsetOfTheBufferHoldsOneByte := fun m =>
  ⟨fun a ha => ⟨_, Memory.read_inside m a ha⟩, fun a ha => Memory.read_outside m a (Nat.not_lt.mpr ha),
    fun a b hwf ha => ⟨Memory.wf_write m a b hwf, Memory.read_write_self m a b hwf ha,
      fun a' hne => Memory.read_write_of_ne m a a' b hne⟩⟩

/-! ### What writes the buffer (R40, R124) -/

/-- Completing a push writes no byte: a frame that is discarded stays in the buffer, uncounted (R126). -/
theorem finishPush_buf (s t : State) (h : finishPush s = .next t) : t.buf = s.buf := by
  obtain ⟨-, rfl⟩ | ⟨-, -, rfl⟩ | ⟨-, -, rfl⟩ := finishPush_next s t h <;> rfl

/-- A push writes no byte, or the one at `len` (R124). -/
theorem execRxPush_buf (b : Byte) (s t : State) (h : execRxPush b s = .next t) :
    t.buf = s.buf ∨ ∃ d, t.buf = Memory.write s.buf s.len.toNat d := by
  obtain ⟨-, rfl⟩ | ⟨-, p, -, rfl⟩ | ⟨-, p, d, -, -, hfinish⟩ := execRxPush_next b s t h
  · exact .inl rfl
  · exact .inl rfl
  · exact .inr ⟨d, finishPush_buf (appended (acceptRaw s p) d) t hfinish⟩

theorem execRxTake_buf (s t : State) (h : execRxTake s = .next t) : t.buf = s.buf := by
  obtain ⟨-, rfl⟩ | ⟨-, bytes, -, rfl⟩ | ⟨-, rfl⟩ := execRxTake_next s t h <;> rfl

/-- Every instruction but `RX_PUSH` leaves the buffer as it was. -/
theorem exec_buf_of_ne_rxPush (i : Instr) (s t : State) (hi : ∀ b, i ≠ .rxPush b) (h : exec i s = .next t) :
    t.buf = s.buf := by
  cases hp : pureResponse s.cmdTable i with
  | some r => cases (exec_of_pureResponse i s r hp).symm.trans h; rfl
  | none =>
    cases i
    case rxStart => cases h; rfl
    case rxPush b => exact absurd rfl (hi b)
    case rxTake => exact execRxTake_buf s t h
    case rxStatus => cases h; rfl
    all_goals cases hp

/-- Settles O57: no other instruction writes the buffer, and what a push writes is at `len`. -/
theorem onlyAPushWritesOneByteOfTheBuffer : Obligations.OnlyAPushWritesOneByteOfTheBuffer := by
  intro i s t h
  refine ⟨fun hi a => by rw [exec_buf_of_ne_rxPush i s t hi h], ?_⟩
  rintro b rfl a ha
  obtain hbuf | ⟨d, hbuf⟩ := execRxPush_buf b s t h
  · rw [hbuf]
  · rw [hbuf, Memory.read_write_of_ne _ _ _ _ ha]

/-! ### The layout of a frame (R47) -/

/-- The checksum of a payload as arithmetic on the exact sum of its bytes (R100). -/
theorem chk_toNat (p : Bytes) : (chk p).toNat = 0xFF - (p.map BitVec.toNat).sum % 256 := by
  have hle : (sum8 p).toNat ≤ 0xFF := Nat.le_of_lt_succ (sum8 p).isLt
  rw [chk, BitVec.toNat_sub_of_le hle, sum8_toNat]
  rfl

/-- A frame's bytes in order: delimiter, the two length bytes, payload, checksum (R47). -/
theorem frame_eq_cons (p : Bytes) :
    frame p = delimiter :: BitVec.ofNat 8 (p.length / 256) :: BitVec.ofNat 8 p.length :: (p ++ [chk p]) := by
  simp [frame, lengthPair_eq]

/-- The payload stands from offset 3 on (R47). -/
theorem frame_getElem?_payload (p : Bytes) (k : Nat) (hk : k < p.length) : (frame p)[3 + k]? = p[k]? := by
  rw [frame_eq_cons, Nat.add_comm]
  exact List.getElem?_append_left hk

/-- The checksum is the last byte (R47). -/
theorem frame_getElem?_checksum (p : Bytes) : (frame p)[p.length + 3]? = some (chk p) := by
  rw [frame_eq_cons]
  exact List.getElem?_concat_length

/-- Settles O22: the bytes of `frame p` in order; the high length byte does not wrap below 65536. -/
theorem frameLayoutByOffset : Obligations.FrameLayoutByOffset := by
  intro p hp
  have hmsb : (BitVec.ofNat 8 (p.length / 256)).toNat = p.length / 256 :=
    (BitVec.toNat_ofNat _ _).trans (Nat.mod_eq_of_lt (by omega))
  refine ⟨frame_length p, rfl, ?_, frame_getElem?_payload p, chk p, frame_getElem?_checksum p, chk_toNat p⟩
  exact ⟨_, _, by rw [frame_eq_cons]; rfl, by rw [frame_eq_cons]; rfl, hmsb, BitVec.toNat_ofNat _ _⟩

/-! ### A frame on the wire (R49) -/

/-- The reserved set as a list (R80). -/
theorem reserved_eq_decide_mem (b : Byte) : reserved b = decide (b ∈ ([0x7E, 0x7D, 0x11, 0x13] : Bytes)) := by
  rw [Bool.eq_iff_iff]
  simp [reserved, or_assoc]

/-- Escaping makes a byte string longer by one byte for each reserved byte in it (R85). -/
theorem esc_length (s : Bytes) : (esc s).length = s.length + s.countP reserved := by
  induction s with
  | nil => rfl
  | cons b s ih =>
    rw [esc_cons, List.length_append, ih, List.countP_cons, List.length_cons]
    obtain ⟨hb, heq⟩ | ⟨hb, heq⟩ := escapeByte_cases b
    · simp [heq, hb]; omega
    · simp [heq, hb]; omega

/-- The unescape state machine, with no escape byte pending, takes an escaped byte back (R82). -/
theorem unescFrom_escapeByte_append (b : Byte) (s : Bytes) :
    unescFrom false (escapeByte b ++ s) = ((unescFrom false s).1, b :: (unescFrom false s).2) := by
  obtain ⟨-, heq⟩ | ⟨hb, heq⟩ := escapeByte_cases b
  · simp [heq, unescFrom_cons]
  · simp [heq, unescFrom_cons, unescStep_plain b (ne_escByte_of_not_reserved b hb)]

/-- Unescaping takes escaping back, and leaves no escape byte pending (R84). -/
theorem unescFrom_esc (s : Bytes) : unescFrom false (esc s) = (false, s) := by
  induction s with
  | nil => rfl
  | cons b s ih => rw [esc_cons, unescFrom_escapeByte_append, ih]

/-- The wire bytes are the delimiter as is and the rest of the frame escaped (R49, R106). -/
theorem wire_eq_esc_frame_tail (p : Bytes) : wire p = delimiter :: esc ((frame p).drop 1) := by
  simp [wire, frame]

/-- `FRAME_ENCODE` of a payload of 1 to 65535 bytes returns its wire bytes (R107). -/
theorem execFrameEncode_of_fits (d : Bytes) (s : State) (hne : d ≠ []) (hd : d.length ≤ Config.maxPayload) :
    execFrameEncode d s = answer s (okOut (wire d)) := by
  rw [execFrameEncode, if_neg (by simpa using hne), if_neg (Nat.not_lt.mpr hd)]

/-- Settles O24: with `esc` of the frame after its delimiter as the escaped bytes. -/
theorem wireBytesLengthAndContent : Obligations.WireBytesLengthAndContent := by
  intro s d hne hd
  refine ⟨esc ((frame d).drop 1), ?_, ?_, unescFrom_esc _⟩
  · exact (execFrameEncode_of_fits d s hne hd).trans (by rw [wire_eq_esc_frame_tail]; rfl)
  · have hcount : ((frame d).drop 1).countP reserved =
        ((frame d).drop 1).countP (fun b => b ∈ ([0x7E, 0x7D, 0x11, 0x13] : Bytes)) :=
      congrArg (List.countP · _) (funext reserved_eq_decide_mem)
    rw [List.length_cons, esc_length, hcount, List.length_drop, frame_length]
    omega

end Sys2Proof.Machine

/-! PROOFS. 30_encoding.md: the decoder takes back what the encoder gives (R62, R64), which codes are reserved (R65),
which fields each operation reads and which outputs it produces (R62 to R64), and `READ_FRAME` (R72). -/

namespace Sys2Proof.Machine

/-! ### The decoder on an encoded instruction (R62, R64, R66) -/

/-- The encoder drives every field the instruction's operation reads, so the decoder finds each operand again. -/
theorem decode_encode (i : Instr) (h : wellFormed i = true) : decode (encode i) = .ok i := by
  cases i
  case ni | sc | bh => decide
  all_goals simp only [encode, decode, decodeFields, decodeOp_opCode, decodeAction_actionCode]
  case escape | unescape | chkCompute | chkValidate | lenFromPayload | lenFromRaw | frameEncode =>
    exact (withData_eq_ok _ _ _).mpr ⟨h, rfl⟩
  case cmdEncode | atEncode => exact (withString_eq_ok _ _ _).mpr ⟨h, rfl⟩

/-- Settles O9: constructor by constructor. -/
theorem decodeOfEncodeIsTheInstruction : Obligations.DecodeOfEncodeIsTheInstruction := decode_encode

/-- Settles O5: the step decodes the request, which is the instruction encoded. -/
theorem issuedEncodingRunsTheInstruction : Obligations.IssuedEncodingRunsTheInstruction :=
  fun s i rest hissued hwf => stepRunsTheDecodedInstruction s (encode i) rest i hissued (decode_encode i hwf)

/-- Settles O11: each row of the operation map read field by field. -/
theorem writtenOutWordsDecode : Obligations.WrittenOutWordsDecode := ⟨rfl, rfl, rfl, rfl, rfl, rfl, rfl⟩

/-! ### Requests that are no instruction (R60, R62, R65) -/

/-- Settles O6: there is no request to take. -/
theorem nothingIssuedChangesNothing : Obligations.NothingIssuedChangesNothing := by
  intro s hissued
  simp only [step, takeIssued_nil s hissued]

/-- A request that is no instruction is rejected, and taken from the list. -/
theorem step_of_decode_error (s : State) (r : Request) (rest : List Request) (e : DecodeError)
    (hissued : s.issued = r :: rest) (hdecode : decode r = .error e) :
    step s = rejectRequest e { s with issued := rest } := by
  simp only [step, takeIssued_cons s r rest hissued, hdecode]

/-- The reserved operation codes are those the operation map leaves out (R65). -/
theorem decodeOp_eq_none_iff (code : Byte) :
    decodeOp code = none ↔
      code.toNat = 0x00 ∨ (0x05 ≤ code.toNat ∧ code.toNat ≤ 0x0F) ∨ (0x17 ≤ code.toNat ∧ code.toNat ≤ 0x1F) ∨
        0x23 ≤ code.toNat := by
  revert code
  decide

/-- Settles O7: the map names no operation, and the rejection of a reserved code is `ILLEGAL_OP`. -/
theorem reservedOpCodeReturnsIllegalOp : Obligations.ReservedOpCodeReturnsIllegalOp := by
  intro s x rest hissued hreserved
  have hdecode : decode (.op x) = .error .reservedOp := by
    simp only [decode, decodeFields, (decodeOp_eq_none_iff x.op).mpr hreserved]
  exact step_of_decode_error s (.op x) rest .reservedOp hissued hdecode

/-- The operations 0x10 to 0x16 check `D` (R62, R64). -/
theorem decodeFields_dataTooLong (x : OpFields) (hlo : 0x10 ≤ x.op.toNat) (hhi : x.op.toNat ≤ 0x16)
    (hlong : dataFits x.d = false) : decodeFields x = .error .dataTooLong := by
  have hsome : decodeOp x.op ≠ none := by rw [Ne, decodeOp_eq_none_iff]; omega
  obtain ⟨n, hn⟩ := Option.ne_none_iff_exists'.mp hsome
  rw [opCode_of_decodeOp x.op n hn] at hlo hhi
  cases n
  case escape | unescape | chkCompute | chkValidate | lenFromPayload | lenFromRaw | frameEncode =>
    simp [decodeFields, hn, withData, hlong]
  all_goals simp [opCode] at hlo hhi

/-- The operations 0x20 and 0x22 check `S` (D15, R64). -/
theorem decodeFields_stringTooLong (x : OpFields) (hop : x.op.toNat = 0x20 ∨ x.op.toNat = 0x22)
    (hlong : stringFits x.s = false) : decodeFields x = .error .stringTooLong := by
  rcases hop with hop | hop
  · have hcode : x.op = opCode .cmdEncode := BitVec.eq_of_toNat_eq hop
    simp [decodeFields, hcode, withString, hlong]
  · have hcode : x.op = opCode .atEncode := BitVec.eq_of_toNat_eq hop
    simp [decodeFields, hcode, withString, hlong]

/-- Settles O8: the check of the operand's field fails. -/
theorem overlongOperandIsRefused : Obligations.OverlongOperandIsRefused := by
  intro s x rest hissued
  constructor
  · intro hlo hhi hlong
    exact step_of_decode_error s (.op x) rest .dataTooLong hissued
      (decodeFields_dataTooLong x hlo hhi (decide_eq_false (Nat.not_le.mpr hlong)))
  · intro hop hlong
    exact step_of_decode_error s (.op x) rest .stringTooLong hissued
      (decodeFields_stringTooLong x hop (decide_eq_false (Nat.not_le.mpr hlong)))

/-! ### The fields an operation reads (R62, R64) -/

/-- Two requests the decoder answers alike are executed alike. -/
theorem step_issued_congr (s : State) (r r' : Request) (rest : List Request) (h : decode r = decode r') :
    step { s with issued := r :: rest } = step { s with issued := r' :: rest } := by
  simp only [step, takeIssued, h]

/-- Settles O10: the decoder reads no field but those of the operation the code names. -/
theorem operationReadsOnlyItsNamedFields : Obligations.OperationReadsOnlyItsNamedFields := by
  intro s x y rest hop hb hd hm hs hf
  refine step_issued_congr s (.op x) (.op y) rest ?_
  cases hn : decodeOp x.op with
  | none => simp only [decode, decodeFields, ← hop, hn]
  | some n =>
    rw [opCode_of_decodeOp x.op n hn] at hb hd hm hs hf
    cases n
    all_goals simp only [decode, decodeFields, ← hop, hn]
    case rxPush => rw [hb rfl]
    case escape | unescape | chkCompute | chkValidate | lenFromPayload | lenFromRaw | frameEncode =>
      rw [hd (by decide)]
    case cmdDecode => rw [hm (by decide)]
    case cmdEncode =>
      obtain ⟨ha, hv, hstr⟩ := hs (.inl rfl)
      rw [hm (by decide), ha, hv, hstr]
    case atEncode =>
      obtain ⟨ha, hv, hstr⟩ := hs (.inr rfl)
      rw [hm (by decide), ha, hv, hstr, hf rfl]

/-! ### The outputs of an operation (R63, R64) -/

/-- `r` carries the output fields R64 lists for `i` when it is `OK`, and `OUT = []` and `Q = 0` when it is not (R63). -/
def ProducesOutputsOf (i : Instr) (r : Response) : Prop :=
  (r.st = .ok → (r.out.isSome, r.q.isSome, r.stat.isSome) = outputsOf i) ∧
  (r.st ≠ .ok → r.out = some [] ∧ r.q = some 0)

/-- An `OK` response is judged by its fields alone. -/
theorem producesOutputsOf_ok {i : Instr} {r : Response} (hst : r.st = .ok)
    (h : (r.out.isSome, r.q.isSome, r.stat.isSome) = outputsOf i) : ProducesOutputsOf i r :=
  ⟨fun _ => h, fun hne => absurd hst hne⟩

/-- A status other than `OK` comes in one form for every operation (R63). -/
theorem producesOutputsOf_errorResponse (i : Instr) {st : Status} (hst : st ≠ .ok) :
    ProducesOutputsOf i (errorResponse st) := ⟨fun hok => absurd hok hst, fun _ => ⟨rfl, rfl⟩⟩

/-- `RX_PUSH` gives `STAT` beside the fields of any other failed operation (R127). -/
theorem producesOutputsOf_pushError (i : Instr) (s : State) {st : Status} (hst : st ≠ .ok) :
    ProducesOutputsOf i (pushError st s) := ⟨fun hok => absurd hok hst, fun _ => ⟨rfl, rfl⟩⟩

/-- A parameter that cannot be encoded is reported as `ILLEGAL_VALUE` (R155, R156). -/
theorem commandParam_error {k : CmdKind} {a : Action} {v : BitVec 32} {str : List Scalar} {st : Status}
    (h : commandParam k a v str = .error st) : st = .illegalValue := by
  unfold commandParam at h
  by_cases ha : a = .write
  · rw [if_pos ha] at h
    cases k
    case query => cases h
    case num =>
      dsimp only [numericParam] at h
      split at h <;> cases h
      rfl
    case str =>
      dsimp only [stringParam] at h
      split at h <;> cases h
      rfl
  · rw [if_neg ha] at h
    cases h

/-- The statuses the encoder raises, in the order of its checks (R160, R183). -/
theorem encodeCommand_error {t : CmdTable} {m : Mnemonic} {a : Action} {v : BitVec 32} {str : List Scalar}
    {st : Status} (h : encodeCommand t m a v str = .error st) :
    st = .noMatch ∨ st = .illegalAction ∨ st = .illegalValue := by
  unfold encodeCommand at h
  split at h
  · cases h; exact .inl rfl
  · split at h
    · split at h
      · next hparam => cases h; exact .inr (.inr (commandParam_error hparam))
      · cases h
    · cases h; exact .inr (.inl rfl)

/-- The statuses of the command encoder, and that of a payload that is too long (R166). -/
theorem encodeAtRequest_error {t : CmdTable} {m : Mnemonic} {a : Action} {f : Byte} {v : BitVec 32}
    {str : List Scalar} {st : Status} (h : encodeAtRequest t m a f v str = .error st) :
    (st = .noMatch ∨ st = .illegalAction ∨ st = .illegalValue) ∨ st = .lengthOverflow := by
  unfold encodeAtRequest at h
  split at h
  · next hcmd => cases h; exact .inl (encodeCommand_error hcmd)
  · split at h <;> cases h
    exact .inr rfl

/-- Bytes encoded are `OUT`, and a status raised is not `OK`. -/
theorem producesOutputsOf_resultOut {i : Instr} {result : Except Status Bytes}
    (hout : outputsOf i = (true, false, false)) (herr : ∀ st, result = .error st → st ≠ .ok) :
    ProducesOutputsOf i (resultOut result) := by
  cases result with
  | ok out => exact producesOutputsOf_ok rfl hout.symm
  | error st => exact producesOutputsOf_errorResponse i (herr st rfl)

/-- The mnemonic decoder answers an index in `Q`, or `NO_MATCH` (R163, R164). -/
theorem producesOutputsOf_decodeResponse {i : Instr} (t : CmdTable) (m : Mnemonic)
    (hq : outputsOf i = (false, true, false)) : ProducesOutputsOf i (decodeResponse t m) := by
  unfold decodeResponse
  split
  · exact producesOutputsOf_errorResponse i (by decide)
  · exact producesOutputsOf_ok rfl hq.symm

/-- A pure operation answers the outputs of its row, or an error its own rule raises (R20, R64). -/
theorem producesOutputsOf_pureResponse {t : CmdTable} {i : Instr} {r : Response} (h : pureResponse t i = some r) :
    ProducesOutputsOf i r := by
  cases i
  all_goals cases h
  case escape | unescape | chkCompute => exact producesOutputsOf_ok rfl rfl
  case chkValidate d =>
    split
    · exact producesOutputsOf_errorResponse _ (by decide)
    · split
      · exact producesOutputsOf_ok rfl rfl
      · exact producesOutputsOf_errorResponse _ (by decide)
  case lenFromPayload d =>
    split
    · exact producesOutputsOf_errorResponse _ (by decide)
    · exact producesOutputsOf_ok rfl rfl
  case lenFromRaw d =>
    split
    · exact producesOutputsOf_ok rfl rfl
    · exact producesOutputsOf_errorResponse _ (by decide)
  case frameEncode d =>
    split
    · exact producesOutputsOf_errorResponse _ (by decide)
    · split
      · exact producesOutputsOf_errorResponse _ (by decide)
      · exact producesOutputsOf_ok rfl rfl
  case cmdEncode =>
    refine producesOutputsOf_resultOut rfl fun st hst => ?_
    obtain rfl | rfl | rfl := encodeCommand_error hst <;> decide
  case atEncode =>
    refine producesOutputsOf_resultOut rfl fun st hst => ?_
    obtain (rfl | rfl | rfl) | rfl := encodeAtRequest_error hst <;> decide
  case cmdDecode | ni | sc | bh => exact producesOutputsOf_decodeResponse t _ rfl

theorem finishPush_producesOutputs (b : Byte) {s t : State} (h : finishPush s = .next t) :
    ∃ r, t.resp = some r ∧ ProducesOutputsOf (.rxPush b) r := by
  obtain ⟨-, rfl⟩ | ⟨-, -, rfl⟩ | ⟨-, -, rfl⟩ := finishPush_next s t h
  · exact ⟨_, rfl, producesOutputsOf_ok rfl rfl⟩
  · exact ⟨_, rfl, producesOutputsOf_ok rfl rfl⟩
  · exact ⟨_, rfl, producesOutputsOf_pushError _ _ (by decide)⟩

theorem execRxPush_producesOutputs {b : Byte} {s t : State} (h : execRxPush b s = .next t) :
    ∃ r, t.resp = some r ∧ ProducesOutputsOf (.rxPush b) r := by
  obtain ⟨-, rfl⟩ | ⟨-, p, -, rfl⟩ | ⟨-, p, d, -, -, hfinish⟩ := execRxPush_next b s t h
  · exact ⟨_, rfl, producesOutputsOf_pushError _ _ (by decide)⟩
  · exact ⟨_, rfl, producesOutputsOf_ok rfl rfl⟩
  · exact finishPush_producesOutputs b hfinish

theorem execRxTake_producesOutputs {s t : State} (h : execRxTake s = .next t) :
    ∃ r, t.resp = some r ∧ ProducesOutputsOf .rxTake r := by
  obtain ⟨-, rfl⟩ | ⟨-, bytes, -, rfl⟩ | ⟨-, rfl⟩ := execRxTake_next s t h
  · exact ⟨_, rfl, producesOutputsOf_errorResponse _ (by decide)⟩
  · exact ⟨_, rfl, producesOutputsOf_ok rfl rfl⟩
  · exact ⟨_, rfl, producesOutputsOf_errorResponse _ (by decide)⟩

/-- Every operation returns a response with the outputs of its own row (R63, R64). -/
theorem exec_producesOutputs {i : Instr} {s t : State} (h : exec i s = .next t) :
    ∃ r, t.resp = some r ∧ ProducesOutputsOf i r := by
  cases hp : pureResponse s.cmdTable i with
  | some r =>
    cases (exec_of_pureResponse i s r hp).symm.trans h
    exact ⟨r, rfl, producesOutputsOf_pureResponse hp⟩
  | none =>
    cases i
    case rxStart | rxStatus =>
      cases h
      exact ⟨_, rfl, producesOutputsOf_ok rfl rfl⟩
    case rxPush b => exact execRxPush_producesOutputs h
    case rxTake => exact execRxTake_producesOutputs h
    all_goals cases hp

/-- Settles O56: the response a next state carries is the one the operation returned. -/
theorem outputsAreThoseListedForTheOperation : Obligations.OutputsAreThoseListedForTheOperation := by
  intro i s t r h hr
  obtain ⟨r', hr', hout⟩ := exec_producesOutputs h
  cases hr.symm.trans hr'
  exact hout

/-! ### A frame still in receipt (R30, R125) -/

/-- The bytes do not yet make a frame: the length field is not held whole, or fewer bytes than it declares are
(R125). -/
def ShortOfAFrame (held : Bytes) : Prop := held.length ≤ 3 ∨ held.length < declaredLength held + overhead

/-- The bytes are as many as their length field declares (R125). -/
def MakesAFrame (held : Bytes) : Prop := 3 < held.length ∧ held.length = declaredLength held + overhead

theorem ShortOfAFrame.not_makesAFrame {held : Bytes} (h : ShortOfAFrame held) : ¬ MakesAFrame held := by
  unfold ShortOfAFrame MakesAFrame at *
  omega

/-- The length field is read at offsets 1 and 2, so later bytes do not change it. -/
theorem ShortOfAFrame.of_append {held more : Bytes} (h : ShortOfAFrame (held ++ more)) : ShortOfAFrame held := by
  by_cases h3 : held.length ≤ 3
  · exact .inl h3
  · have hdecl : declaredLength (held ++ more) = declaredLength held := by
      simp only [declaredLength, List.getD_append _ _ _ _ (show 1 < held.length by omega),
        List.getD_append _ _ _ _ (show 2 < held.length by omega)]
    rw [ShortOfAFrame, hdecl, List.length_append] at h
    exact .inr (by omega)

/-- A frame ends inside the buffer, so what is short of one has room for a byte (R40, D11). -/
theorem ShortOfAFrame.length_lt_bufCap {held : Bytes} (h : ShortOfAFrame held) : held.length < Config.bufCap := by
  have hdecl := declaredLength_le held
  simp only [ShortOfAFrame, Config.maxPayload, Config.bufCap, overhead] at *
  omega

/-- The accumulator takes raw bytes, holds `bytes`, and has an escape byte pending or not. -/
structure Receiving (s : State) (bytes : Bytes) (pending : Bool) : Prop where
  buffer : BufferHolds s bytes
  accepts : acceptsPush s
  pending : s.escPending = pending

/-- The bytes held do not depend on what was returned (R28). -/
theorem BufferHolds.respond {s : State} {bytes : Bytes} (h : BufferHolds s bytes) (r : Response) :
    BufferHolds (respond s r) bytes := ⟨h.bufCanonical, h.bufInside, h.lenInside, h.held, h.csum⟩

/-- After `RX_START` nothing is held and nothing is pending (R130). -/
theorem receiving_of_rxStart {s : State} (h : Inv s) : Receiving (respond (clearAccumulator s) okOnly) [] false where
  buffer := ⟨h.bufCanonical, h.bufInside, Nat.zero_le _, rfl, rfl⟩
  accepts := .inl rfl
  pending := rfl

/-! ### A push into a frame in receipt (R122 to R126) -/

section
variable {s : State} {bytes : Bytes} {pending pending' : Bool} {b d : Byte}

/-- A push of a byte the unescape step holds back leaves the bytes held as they were (R123). -/
theorem Receiving.push_pending (h : Receiving s bytes pending) (hstep : unescStep pending b = (pending', none)) :
    exec (.rxPush b) s = answer (acceptRaw s pending') (pushOk (acceptRaw s pending')) := by
  rw [exec, execRxPush_accepts b s h.accepts]
  simp only [acceptPush, h.pending, hstep]

/-- A push of a byte the unescape step puts out appends it (R124). -/
theorem Receiving.push_append (h : Receiving s bytes pending) (hstep : unescStep pending b = (pending', some d))
    (hroom : bytes.length < Config.bufCap) :
    exec (.rxPush b) s = finishPush (appended (acceptRaw s pending') d) ∧
      BufferHolds (appended (acceptRaw s pending') d) (bytes ++ [d]) := by
  have hlen : s.len.toNat < Config.bufCap := heldBytes_length s bytes h.buffer.held ▸ hroom
  refine ⟨?_, (h.buffer.acceptRaw pending').appended d hlen⟩
  rw [exec, execRxPush_accepts b s h.accepts]
  exact acceptPush_append s b d pending' (h.pending ▸ hstep) hlen

end

theorem frameComplete_iff_makesAFrame {s : State} {bytes : Bytes} (h : heldBytes s = some bytes) :
    frameComplete s = true ↔ MakesAFrame bytes := by
  rw [frameComplete_of_held s bytes h, decide_eq_true_iff, MakesAFrame, heldBytes_length s bytes h]

/-- `STAT` of a push reports a result exactly where one is held then (R72, R127). -/
theorem pushReportsResult_respond_pushOk (s : State) :
    pushReportsResult (respond s (pushOk s)) = (rxStateCode s.rxState == 2 || rxStateCode s.rxState == 3) := by
  simp [pushReportsResult, pushOk]

/-- A push that leaves the bytes short of a frame goes on with the unescaped history, and reports no result (R72,
R122 to R125). -/
theorem Receiving.push {s : State} {bytes : Bytes} {pending : Bool} (h : Receiving s bytes pending) (b : Byte)
    (hshort : ShortOfAFrame (bytes ++ (unescStep pending b).2.toList)) :
    ∃ t, exec (.rxPush b) s = .next t ∧ pushReportsResult t = false ∧
      Receiving t (bytes ++ (unescStep pending b).2.toList) (unescStep pending b).1 := by
  rcases hstep : unescStep pending b with ⟨pending', _ | d⟩
  · refine ⟨_, h.push_pending hstep, pushReportsResult_respond_pushOk _, ?_, .inr rfl, rfl⟩
    simpa using (h.buffer.acceptRaw pending').respond _
  · rw [hstep] at hshort
    obtain ⟨hexec, hbuf⟩ := h.push_append hstep hshort.of_append.length_lt_bufCap
    refine ⟨_, hexec.trans ?_, pushReportsResult_respond_pushOk _, hbuf.respond _, .inr rfl, rfl⟩
    rw [finishPush, if_neg (mt (frameComplete_iff_makesAFrame hbuf.held).mp hshort.not_makesAFrame)]
    rfl

/-- The push that completes a frame with the right checksum holds it, and reports it (R72, R126). -/
theorem Receiving.push_completing {s : State} {bytes : Bytes} {pending pending' : Bool} {b d : Byte}
    (h : Receiving s bytes pending) (hshort : ShortOfAFrame bytes)
    (hstep : unescStep pending b = (pending', some d)) (hframe : MakesAFrame (bytes ++ [d]))
    (hsum : sum8 ((bytes ++ [d]).drop 3) = 0xFF) :
    ∃ t, exec (.rxPush b) s = .next t ∧ pushReportsResult t = true ∧ t.rxState = .complete ∧
      heldBytes t = some (bytes ++ [d]) := by
  obtain ⟨hexec, hbuf⟩ := h.push_append hstep hshort.length_lt_bufCap
  refine ⟨_, hexec.trans ?_, pushReportsResult_respond_pushOk _, rfl, (hbuf.holdFrame.respond _).held⟩
  rw [finishPush, if_pos ((frameComplete_iff_makesAFrame hbuf.held).mpr hframe), if_pos (hbuf.csum.trans hsum)]
  rfl

/-! ### A frame's wire bytes as a stream (R49, R82, R108) -/

/-- Unescaping goes on across a cut with the bit it left (R90). -/
theorem unescFrom_append (pending : Bool) (raw more : Bytes) :
    unescFrom pending (raw ++ more) =
      ((unescFrom (unescFrom pending raw).1 more).1,
        (unescFrom pending raw).2 ++ (unescFrom (unescFrom pending raw).1 more).2) := by
  induction raw generalizing pending with
  | nil => rfl
  | cons b raw ih => simp only [List.cons_append, unescFrom_cons, ih, List.append_assoc]

/-- Of an escaped byte, only the last raw byte is put out by the unescape step. -/
theorem escapeByte_eq_append_last (d : Byte) :
    ∃ raw b pending, escapeByte d = raw ++ [b] ∧ unescFrom false raw = (pending, []) ∧
      unescStep pending b = (false, some d) := by
  obtain ⟨-, heq⟩ | ⟨hd, heq⟩ := escapeByte_cases d
  · exact ⟨[escByte], d ^^^ escMask, true, heq, rfl, by simp⟩
  · exact ⟨[], d, false, heq, rfl, unescStep_plain d (ne_escByte_of_not_reserved d hd)⟩

/-- The frame of `p` before its checksum. -/
def framePrefix (p : Bytes) : Bytes := [delimiter] ++ lengthPair p.length ++ p

theorem frame_eq_framePrefix_append (p : Bytes) : frame p = framePrefix p ++ [chk p] := rfl

/-- The last wire byte is the one that gives the checksum; those before it give the rest of the frame. -/
theorem wire_eq_append_last (p : Bytes) :
    ∃ raw b pending, wire p = raw ++ [b] ∧ unescFrom false raw = (pending, framePrefix p) ∧
      unescStep pending b = (false, some (chk p)) := by
  obtain ⟨raw, b, pending, heq, hraw, hlast⟩ := escapeByte_eq_append_last (chk p)
  refine ⟨delimiter :: esc (lengthPair p.length ++ p) ++ raw, b, pending, ?_, ?_, hlast⟩
  · simp [wire, heq]
  · rw [unescFrom_append, unescFrom_cons, unescStep_plain delimiter (by decide), unescFrom_esc, hraw]
    simp [framePrefix]

section
variable {p : Bytes} (hp : p.length ≤ Config.maxPayload)
include hp

theorem declaredLength_framePrefix_append (more : Bytes) : declaredLength (framePrefix p ++ more) = p.length := by
  rw [framePrefix, lengthPair_eq]
  exact lengthOfPair_lengthPair p.length hp

theorem framePrefix_shortOfAFrame : ShortOfAFrame (framePrefix p) := by
  have hdecl := declaredLength_framePrefix_append hp []
  rw [List.append_nil] at hdecl
  rw [ShortOfAFrame, hdecl]
  simp [framePrefix, overhead]
  omega

theorem frame_makesAFrame : MakesAFrame (frame p) := by
  rw [frame_eq_framePrefix_append, MakesAFrame, declaredLength_framePrefix_append hp]
  simp [framePrefix, overhead]
  omega

end

theorem sum8_drop_frame (p : Bytes) : sum8 ((frame p).drop 3) = 0xFF := by
  rw [frame_eq_cons]
  simp [sum8_add_chk]

/-! ### `READ_FRAME` (R72) -/

/-- While the raw bytes are short of a frame, the read pushes them and goes on (R72, R206). -/
theorem Receiving.pushUntilResult_append {s : State} {bytes : Bytes} {pending : Bool} (h : Receiving s bytes pending)
    (raw rest : Bytes) (hshort : ShortOfAFrame (bytes ++ (unescFrom pending raw).2)) :
    ∃ t, pushUntilResult (raw ++ rest) s = pushUntilResult rest t ∧
      Receiving t (bytes ++ (unescFrom pending raw).2) (unescFrom pending raw).1 := by
  induction raw generalizing s bytes pending with
  | nil => exact ⟨s, rfl, by simpa using h⟩
  | cons b raw ih =>
    rw [unescFrom_cons, ← List.append_assoc] at hshort ⊢
    obtain ⟨t, hexec, hreport, ht⟩ := h.push b hshort.of_append
    obtain ⟨u, hread, hu⟩ := ih ht hshort
    exact ⟨u, by simpa [pushUntilResult, hexec, hreport] using hread, hu⟩

/-- A read of the wire bytes of a payload ends on the last of them, with the frame held (R72, R108). -/
theorem Receiving.pushUntilResult_wire {s : State} (h : Receiving s [] false) {p : Bytes} (rest : Bytes)
    (hp : p.length ≤ Config.maxPayload) :
    ∃ t, pushUntilResult (wire p ++ rest) s = some (t, rest) ∧ t.rxState = .complete ∧
      heldBytes t = some (frame p) := by
  obtain ⟨raw, b, pending, hwire, hraw, hlast⟩ := wire_eq_append_last p
  have hshort := framePrefix_shortOfAFrame hp
  obtain ⟨t, hread, ht⟩ := h.pushUntilResult_append raw (b :: rest) (by simpa [hraw] using hshort)
  rw [hraw] at ht
  obtain ⟨u, hexec, hreport, hrx, hheld⟩ := ht.push_completing hshort hlast (frame_makesAFrame hp) (sum8_drop_frame p)
  refine ⟨u, ?_, hrx, hheld⟩
  rw [hwire, List.append_assoc, List.singleton_append, hread]
  simp [pushUntilResult, hexec, hreport]

/-- Settles O36: `RX_START`, the pushes up to the last wire byte, and the `RX_TAKE` of the frame they left. -/
theorem readFrameReturnsTheFrameAndLeavesTheRest : Obligations.ReadFrameReturnsTheFrameAndLeavesTheRest := by
  intro s p rest hinv hp
  obtain ⟨t, hread, hrx, hheld⟩ := (receiving_of_rxStart hinv).pushUntilResult_wire rest hp
  have htake : exec .rxTake t = answer (clearAccumulator t) (okOut (frame p)) :=
    execRxTake_complete t (frame p) hrx hheld
  have hstart : exec .rxStart s = .next (respond (clearAccumulator s) okOnly) := rfl
  refine ⟨respond (clearAccumulator t) (okOut (frame p)), ?_, rfl, rfl⟩
  simp only [readFrame, hstart, hread, htake, answer]

end Sys2Proof.Machine

/-! PROOFS. 40_byte_stuffing.md: what `ESCAPE` replaces (R81, R86), the unescape state machine (R82, R87, R90), that it
takes escaping back (R84), and what escaped output looks like (R85). -/

namespace Sys2Proof.Machine

/-! ### `ESCAPE` and `UNESCAPE` (R86, R87) -/

theorem exec_escape (s : State) (d : Bytes) : exec (.escape d) s = answer s (okOut (esc d)) := rfl

/-- An escape byte still pending at the end of `D` is reported in `Q` (R87, D25). -/
theorem exec_unescape (s : State) {d out : Bytes} {p : Bool} (h : unescFrom false d = (p, out)) :
    exec (.unescape d) s = answer s ⟨.ok, some out, some (if p then 1 else 0), none⟩ := by
  have hq : (BitVec.ofBool p).setWidth 16 = if p then 1 else 0 := by cases p <;> rfl
  rw [exec, execUnescape, h, hq]

/-- Settles O12: `esc` is the replacement of R81, whose reserved set is the list of R80. -/
theorem escapeReplacesReservedBytes : Obligations.EscapeReplacesReservedBytes := by
  intro s d
  have hbyte : escapeByte = fun b => if b ∈ ([0x7E, 0x7D, 0x11, 0x13] : Bytes) then [0x7D, b ^^^ 0x20] else [b] := by
    funext b
    simp only [escapeByte, reserved_eq_decide_mem, decide_eq_true_iff, escByte, escMask]
  rw [exec_escape, esc, hbyte]
  rfl

/-! ### The state machine as a left fold (R82, R87) -/

/-- One step of the unescape state machine on the bit and the output so far (R82). -/
def unescOnto (acc : Bool × Bytes) (b : Byte) : Bool × Bytes :=
  ((unescStep acc.1 b).1, acc.2 ++ (unescStep acc.1 b).2.toList)

/-- The three rows of R82. -/
theorem unescOnto_eq (acc : Bool × Bytes) (b : Byte) :
    unescOnto acc b =
      if acc.1 then (false, acc.2 ++ [b ^^^ 0x20]) else if b = 0x7D then (true, acc.2) else (false, acc.2 ++ [b]) := by
  by_cases hp : acc.1 = true
  · rw [if_pos hp, unescOnto, hp]
    rfl
  · rw [if_neg hp, unescOnto, Bool.eq_false_of_not_eq_true hp]
    by_cases hb : b = 0x7D
    · rw [if_pos hb, hb, show unescStep false 0x7D = (true, none) from unescStep_escape]
      simp
    · rw [if_neg hb, unescStep_plain b hb]
      rfl

theorem foldl_unescOnto (p : Bool) (out d : Bytes) :
    d.foldl unescOnto (p, out) = ((unescFrom p d).1, out ++ (unescFrom p d).2) := by
  induction d generalizing p out with
  | nil => simp
  | cons b d ih => rw [List.foldl_cons, unescOnto, ih, unescFrom_cons, List.append_assoc]

/-- Settles O13: the fold written out in the rule is `unescFrom`, by induction on `D`. -/
theorem unescapeRunsTheStateMachine : Obligations.UnescapeRunsTheStateMachine := by
  intro s d p out hfold
  simp only [← unescOnto_eq] at hfold
  exact exec_unescape s ((foldl_unescOnto false [] d).symm.trans hfold)

/-- Settles O14: with `esc d` as the output, which unescapes to `d` with no escape byte pending. -/
theorem unescapeInvertsEscape : Obligations.UnescapeInvertsEscape :=
  fun s d => ⟨esc d, exec_escape s d, exec_unescape s (unescFrom_esc d)⟩

/-- Settles O16: the bit and the output of `unescFrom_append`. -/
theorem chunkBoundariesDoNotChangeUnescaping : Obligations.ChunkBoundariesDoNotChangeUnescaping := by
  intro p x y
  rw [unescFrom_append]
  exact ⟨rfl, rfl⟩

/-! ### Escaped output (R85) -/

/-- The second byte of an escape pair: a reserved byte in its other form (R80, R81). -/
theorem xor_escMask_mem_of_reserved {b : Byte} (h : reserved b = true) :
    b ^^^ escMask ∈ ([0x5E, 0x5D, 0x31, 0x33] : Bytes) := by
  rw [reserved_eq_decide_mem, decide_eq_true_iff] at h
  have hforms : ∀ c ∈ ([0x7E, 0x7D, 0x11, 0x13] : Bytes), c ^^^ escMask ∈ ([0x5E, 0x5D, 0x31, 0x33] : Bytes) := by
    decide
  exact hforms b h

theorem not_reserved_of_mem_forms {b : Byte} (h : b ∈ ([0x5E, 0x5D, 0x31, 0x33] : Bytes)) : reserved b = false := by
  have hforms : ∀ c ∈ ([0x5E, 0x5D, 0x31, 0x33] : Bytes), reserved c = false := by decide
  exact hforms b h

/-- Of the reserved bytes, only the escape byte stands in escaped output. -/
theorem eq_escByte_of_mem_esc {s : Bytes} {b : Byte} (h : b ∈ esc s) (hres : reserved b = true) : b = escByte := by
  obtain ⟨c, -, hb⟩ := List.mem_flatMap.mp h
  obtain ⟨hc, heq⟩ | ⟨hc, heq⟩ := escapeByte_cases c
  · rw [heq, List.mem_pair] at hb
    obtain hb | hb := hb
    · exact hb
    · rw [hb, not_reserved_of_mem_forms (xor_escMask_mem_of_reserved hc)] at hres
      cases hres
  · rw [heq, List.mem_singleton] at hb
    rw [hb, hc] at hres
    cases hres

/-- An escape byte in escaped output begins a pair. -/
theorem esc_getElem?_succ_of_escByte (s : Bytes) (k : Nat) (h : (esc s)[k]? = some escByte) :
    ∃ e ∈ ([0x5E, 0x5D, 0x31, 0x33] : Bytes), (esc s)[k + 1]? = some e := by
  induction s generalizing k with
  | nil => simp at h
  | cons b s ih =>
    rw [esc_cons] at h ⊢
    obtain ⟨hb, heq⟩ | ⟨hb, heq⟩ := escapeByte_cases b
    · have hform := xor_escMask_mem_of_reserved hb
      rw [heq] at h ⊢
      match k with
      | 0 => exact ⟨_, hform, rfl⟩
      | 1 =>
        have hsecond : b ^^^ escMask = escByte := Option.some.inj h
        rw [hsecond] at hform
        exact absurd hform (by decide)
      | k + 2 => exact ih k h
    · rw [heq] at h ⊢
      match k with
      | 0 => exact absurd (Option.some.inj h) (ne_escByte_of_not_reserved b hb)
      | k + 1 => exact ih k h

/-- Settles O15: byte by byte of `d`, each escaped as itself or as a pair. -/
theorem escapedOutputProperties : Obligations.EscapedOutputProperties := by
  refine ⟨fun d => ⟨fun b hb => ?_, esc_getElem?_succ_of_escByte d, esc_length d⟩, by decide⟩
  have honly := eq_escByte_of_mem_esc hb
  refine ⟨?_, ?_, ?_⟩ <;> (rintro rfl; exact absurd (honly rfl) (by decide))

end Sys2Proof.Machine

/-! PROOFS. 41_checksum_length_envelope.md: the checksum of a payload and what its validation detects (R100 to R103),
the length field (R104, R105), the envelope on the wire (R106, R107), and its delivery by the accumulator (R108). -/

namespace Sys2Proof.Machine

/-! ### The checksum (R100 to R103) -/

/-- Settles O17: the checksum as arithmetic on the exact sum, which 16 bits hold. -/
theorem chkComputeReturnsTheChecksum : Obligations.ChkComputeReturnsTheChecksum := by
  intro s d
  refine ⟨(chk d).setWidth 16, ?_, rfl⟩
  rw [BitVec.toNat_setWidth_of_le (by decide), chk_toNat]

/-- The wrapping sum is 0xFF exactly where the exact sum is, modulo 256 (R100). -/
theorem sum8_eq_0xFF_iff (p : Bytes) : sum8 p = 0xFF ↔ (p.map BitVec.toNat).sum % 256 = 0xFF := by
  rw [← sum8_toNat, ← BitVec.toNat_inj]
  rfl

section
variable {d : Bytes} (s : State)

theorem exec_chkValidate_short (h : d.length < overhead) : exec (.chkValidate d) s = raise s .outOfBounds :=
  if_pos h

theorem exec_chkValidate_ok (h : overhead ≤ d.length) (hsum : sum8 (d.drop 3) = 0xFF) :
    exec (.chkValidate d) s = answer s (okQ 1) :=
  (if_neg (Nat.not_lt.mpr h)).trans (if_pos hsum)

theorem exec_chkValidate_mismatch (h : overhead ≤ d.length) (hsum : sum8 (d.drop 3) ≠ 0xFF) :
    exec (.chkValidate d) s = raise s .checksumMismatch :=
  (if_neg (Nat.not_lt.mpr h)).trans (if_neg hsum)

end

/-- Settles O18: the three branches of R102, with the wrapping sum read as the exact one. -/
theorem chkValidateChecksTheSumFromOffsetThree : Obligations.ChkValidateChecksTheSumFromOffsetThree := by
  intro s d
  refine ⟨exec_chkValidate_short s, fun hd hsum => ?_, fun hd hsum => ?_⟩
  · exact exec_chkValidate_ok s hd ((sum8_eq_0xFF_iff _).mpr hsum)
  · exact exec_chkValidate_mismatch s hd (mt (sum8_eq_0xFF_iff _).mp hsum)

/-- Putting another byte in a place changes the sum by the difference of the two (R100). -/
theorem sum8_set_add {p : Bytes} {k : Nat} {old : Byte} (h : p[k]? = some old) (new : Byte) :
    sum8 (p.set k new) + old = sum8 p + new := by
  induction p generalizing k with
  | nil => simp at h
  | cons b p ih =>
    cases k with
    | zero =>
      obtain rfl : b = old := by simpa using h
      simp only [List.set_cons_zero, sum8_cons]
      ac_rfl
    | succ k =>
      rw [List.set_cons_succ, sum8_cons, sum8_cons, BitVec.add_assoc, ih h, BitVec.add_assoc]

/-- The sum detects a change of one byte (R103). -/
theorem sum8_set_ne {p : Bytes} {k : Nat} {old new : Byte} (h : p[k]? = some old) (hne : new ≠ old) :
    sum8 (p.set k new) ≠ sum8 p := by
  intro heq
  have hadd := sum8_set_add h new
  rw [heq] at hadd
  exact hne ((BitVec.add_right_inj _).mp hadd).symm

/-- Settles O19: from offset 3 on a frame sums to 0xFF, and no longer does with one byte changed there. -/
theorem validationAcceptsFramesAndDetectsOneByteErrors :
    Obligations.ValidationAcceptsFramesAndDetectsOneByteErrors := by
  intro s p _
  have hlen : overhead ≤ (frame p).length := by rw [frame_length]; exact Nat.le_add_left 4 _
  refine ⟨exec_chkValidate_ok s hlen (sum8_drop_frame p), fun k old new hk hold hne => ?_⟩
  refine exec_chkValidate_mismatch s (by rwa [List.length_set]) ?_
  have hold' : ((frame p).drop 3)[k - 3]? = some old := by rwa [List.getElem?_drop, Nat.add_sub_cancel' hk]
  rw [List.drop_set, if_neg (Nat.not_lt.mpr hk), ← sum8_drop_frame p]
  exact sum8_set_ne hold' hne

/-! ### The length field (R104, R105) -/

/-- Two bytes that make a length big-endian are its length field (R70). -/
theorem lengthPair_of_toNat {n : Nat} {msb lsb : Byte} (h : 256 * msb.toNat + lsb.toNat = n) :
    lengthPair n = [msb, lsb] := by
  have hmsb := msb.isLt
  have hlsb := lsb.isLt
  have hhigh : BitVec.ofNat 8 (n / 256) = msb := BitVec.eq_of_toNat_eq (by rw [BitVec.toNat_ofNat]; omega)
  have hlow : BitVec.ofNat 8 n = lsb := BitVec.eq_of_toNat_eq (by rw [BitVec.toNat_ofNat]; omega)
  rw [lengthPair_eq, hhigh, hlow]

/-- Settles O20: the length field read back is the length. -/
theorem lenFromPayloadIsBigEndian : Obligations.LenFromPayloadIsBigEndian := by
  intro s d
  refine ⟨fun hd => ⟨_, _, lengthOfPair_lengthPair d.length hd, ?_⟩, fun hd => if_pos hd⟩
  rw [← lengthPair_eq]
  exact if_neg (Nat.not_lt.mpr hd)

/-- Settles O21: `D` has a byte at offset 2 exactly where it has three bytes. -/
theorem lenFromRawReadsOffsetsOneAndTwo : Obligations.LenFromRawReadsOffsetsOneAndTwo := by
  intro s d
  match d with
  | [] | [_] | [_, _] => exact ⟨fun _ _ _ h2 => by simp at h2, fun _ => rfl⟩
  | _ :: x :: y :: _ =>
    refine ⟨fun msb lsb h1 h2 => ?_, fun h => by simp only [List.length_cons] at h; omega⟩
    obtain rfl : x = msb := by simpa using h1
    obtain rfl : y = lsb := by simpa using h2
    rfl

/-! ### The envelope on the wire (R106, R107) -/

/-- The bytes on the wire, with the length field and the checksum given by arithmetic (R100, R106). -/
theorem wire_of_toNat {d : Bytes} {msb lsb c : Byte} (hlen : 256 * msb.toNat + lsb.toNat = d.length)
    (hc : c.toNat = 0xFF - (d.map BitVec.toNat).sum % 256) : wire d = 0x7E :: esc ([msb, lsb] ++ d ++ [c]) := by
  obtain rfl : c = chk d := BitVec.eq_of_toNat_eq (hc.trans (chk_toNat d).symm)
  rw [wire, lengthPair_of_toNat hlen]
  rfl

/-- Settles O23: the three branches of R107. -/
theorem frameEncodeBuildsTheWireBytes : Obligations.FrameEncodeBuildsTheWireBytes := by
  intro s d
  refine ⟨fun hd => if_pos (List.length_eq_zero_iff.mpr hd), fun hd => ?_, fun msb lsb c hne hd hlen hc => ?_⟩
  · exact (if_neg (Nat.ne_zero_of_lt hd)).trans (if_pos hd)
  · rw [← wire_of_toNat hlen hc]
    exact execFrameEncode_of_fits d s hne hd

/-! ### The delivery of a frame (R108) -/

/-- In `EMPTY` nothing is held and nothing is pending (R30). -/
theorem receiving_of_empty {s : State} (h : Inv s) (hrx : s.rxState = .empty) : Receiving s [] false := by
  obtain ⟨bytes, hbuf, hphase⟩ := (inv_iff s).mp h
  simp only [PhaseHolds, hrx] at hphase
  obtain ⟨hlen, hesc, -⟩ := hphase
  obtain rfl : bytes = [] := by
    rw [← List.length_eq_zero_iff, heldBytes_length s bytes hbuf.held, hlen]
    rfl
  exact ⟨hbuf, .inl hrx, hesc⟩

/-- While a byte is accepted, no result is held (R121). -/
theorem Receiving.holdsNoResult {s : State} {bytes : Bytes} {pending : Bool} (h : Receiving s bytes pending) :
    s.rxState ≠ .complete ∧ s.rxState ≠ .cksumErr := by
  rcases h.accepts with hrx | hrx <;> simp [hrx]

/-- While the raw bytes are short of a frame, feeding them goes on with the unescaped history (R72, R90). -/
theorem Receiving.runOps_rxFeed_append {s : State} {bytes : Bytes} {pending : Bool} (h : Receiving s bytes pending)
    (raw : Bytes) (hshort : ShortOfAFrame (bytes ++ (unescFrom pending raw).2)) :
    ∃ t, (∀ rest, runOps (rxFeed (raw ++ rest)) s = runOps (rxFeed rest) t) ∧
      Receiving t (bytes ++ (unescFrom pending raw).2) (unescFrom pending raw).1 := by
  induction raw generalizing s bytes pending with
  | nil => exact ⟨s, fun _ => rfl, by simpa using h⟩
  | cons b raw ih =>
    rw [unescFrom_cons, ← List.append_assoc] at hshort ⊢
    obtain ⟨t, hexec, -, ht⟩ := h.push b hshort.of_append
    obtain ⟨u, hfeed, hu⟩ := ih ht hshort
    exact ⟨u, fun rest => by simpa [rxFeed, runOps, hexec] using hfeed rest, hu⟩

/-- Feeding raw bytes that are short of a frame leaves the accumulator receiving (R72, R206). -/
theorem Receiving.runOps_rxFeed {s : State} {bytes : Bytes} {pending : Bool} (h : Receiving s bytes pending)
    (raw : Bytes) (hshort : ShortOfAFrame (bytes ++ (unescFrom pending raw).2)) :
    ∃ t, runOps (rxFeed raw) s = .next t ∧
      Receiving t (bytes ++ (unescFrom pending raw).2) (unescFrom pending raw).1 := by
  obtain ⟨t, hfeed, ht⟩ := h.runOps_rxFeed_append raw hshort
  exact ⟨t, by simpa [rxFeed, runOps] using hfeed [], ht⟩

/-- A proper prefix of the wire bytes unescapes to bytes short of a frame: its last byte gives the checksum (R108). -/
theorem shortOfAFrame_of_take_wire {p : Bytes} (hp : p.length ≤ Config.maxPayload) {k : Nat}
    (hk : k < (wire p).length) : ShortOfAFrame (unescFrom false ((wire p).take k)).2 := by
  obtain ⟨raw, b, pending, hwire, hraw, -⟩ := wire_eq_append_last p
  have hk' : k ≤ raw.length := by simpa [hwire, Nat.lt_succ_iff] using hk
  have hshort := framePrefix_shortOfAFrame hp
  have hsplit := unescFrom_append false (raw.take k) (raw.drop k)
  rw [List.take_append_drop, hraw] at hsplit
  obtain ⟨-, hprefix⟩ := Prod.mk.inj hsplit
  rw [hprefix] at hshort
  rw [hwire, List.take_append_of_le_length hk']
  exact hshort.of_append

/-- Feeding the wire bytes of a payload ends with its frame held (R108). -/
theorem Receiving.runOps_rxFeed_wire {s : State} (h : Receiving s [] false) {p : Bytes}
    (hp : p.length ≤ Config.maxPayload) :
    ∃ t, runOps (rxFeed (wire p)) s = .next t ∧ t.rxState = .complete ∧ heldBytes t = some (frame p) := by
  obtain ⟨raw, b, pending, hwire, hraw, hlast⟩ := wire_eq_append_last p
  have hshort := framePrefix_shortOfAFrame hp
  obtain ⟨t, hfeed, ht⟩ := h.runOps_rxFeed_append raw (by simpa [hraw] using hshort)
  rw [hraw] at ht
  obtain ⟨u, hexec, -, hrx, hheld⟩ := ht.push_completing hshort hlast (frame_makesAFrame hp) (sum8_drop_frame p)
  refine ⟨u, ?_, hrx, hheld⟩
  rw [hwire, hfeed]
  simp [rxFeed, runOps, hexec]

/-- Settles O35: a proper prefix is short of a frame, the whole makes it, and the take returns what is held. -/
theorem pushingWireBytesDeliversTheFrame : Obligations.PushingWireBytesDeliversTheFrame := by
  intro s p hinv hrx hp
  have hs := receiving_of_empty hinv hrx
  refine ⟨fun k hk => ?_, ?_⟩
  · obtain ⟨t, hfeed, ht⟩ := hs.runOps_rxFeed _ (shortOfAFrame_of_take_wire hp hk)
    exact ⟨t, hfeed, ht.holdsNoResult⟩
  · obtain ⟨t, hfeed, hcomplete, hheld⟩ := hs.runOps_rxFeed_wire hp
    exact ⟨t, hfeed, hcomplete, hheld, _, execRxTake_complete t (frame p) hcomplete hheld, rfl, rfl⟩

end Sys2Proof.Machine

/-! PROOFS. 42_rx_accumulator.md: what a push appends and where it completes a frame (R122 to R127), the take of a
result (R129), the start and the status word (R130, R131), the table of R121, and the unescaped history of a
read (R134). -/

namespace Sys2Proof.Machine

/-! ### The status word (R27, R131) -/

/-- `STATUS` as arithmetic: the three fields do not overlap (R27). -/
theorem statusWord_toNat (s : State) :
    (statusWord s).toNat = s.len.toNat * 256 + (if s.escPending then 4 else 0) + (rxStateCode s.rxState).toNat := by
  have hlen : (s.len.setWidth 32 <<< 8).toNat = s.len.toNat <<< 8 := by
    have := s.len.isLt
    simp only [BitVec.toNat_shiftLeft, BitVec.toNat_setWidth, Nat.shiftLeft_eq]
    omega
  have hlow : ((BitVec.ofBool s.escPending).setWidth 32 <<< 2 ||| (rxStateCode s.rxState).setWidth 32).toNat =
      (if s.escPending then 4 else 0) + (rxStateCode s.rxState).toNat := by
    cases s.escPending <;> cases s.rxState <;> rfl
  have hlt : (if s.escPending then 4 else 0) + (rxStateCode s.rxState).toNat < 2 ^ 8 := by
    have := (rxStateCode s.rxState).isLt
    split <;> omega
  rw [statusWord, BitVec.or_assoc, BitVec.toNat_or, hlow, hlen, ← Nat.shiftLeft_add_eq_or_of_lt hlt, Nat.shiftLeft_eq,
    Nat.add_assoc]

theorem extractLsb'_eq_zero {n start len : Nat} {w : BitVec n} (h : w.toNat / 2 ^ start % 2 ^ len = 0) :
    w.extractLsb' start len = 0 := by
  apply BitVec.eq_of_toNat_eq
  rw [BitVec.extractLsb'_toNat, Nat.shiftRight_eq_div_pow, h]
  rfl

/-- Settles O26: the reserved bits are 0 because the fields below each group of them do not reach it. -/
theorem rxStatusReturnsTheStatusWord : Obligations.RxStatusReturnsTheStatusWord := by
  intro s
  have hw := statusWord_toNat s
  have hlen := s.len.isLt
  have hcode := (rxStateCode s.rxState).isLt
  have hesc : (if s.escPending then 4 else 0) ≤ 4 := by split <;> omega
  refine ⟨statusWord s, rfl, ?_, extractLsb'_eq_zero (by omega), extractLsb'_eq_zero (by omega)⟩
  rw [hw]
  cases s.rxState <;> rfl

/-! ### The start, and a push that appends nothing (R123, R127, R130) -/

/-- Settles O25: the clearing of the registers, with `OK`. -/
theorem rxStartEmptiesTheAccumulator : Obligations.RxStartEmptiesTheAccumulator := fun _ => rfl

/-- Settles O27: the arm of `RX_PUSH` for a held result. -/
theorem pushWhileAResultIsHeldIsBusy : Obligations.PushWhileAResultIsHeldIsBusy := fun s b h => execRxPush_busy b s h

/-- Settles O28: the input stage holds the byte back, and nothing is appended. -/
theorem pushedEscapeByteIsHeldNotCounted : Obligations.PushedEscapeByteIsHeldNotCounted := fun s ha hesc =>
  ⟨_, (execRxPush_accepts escByte s ha).trans (acceptPush_escape s hesc), rfl⟩

/-! ### A push that appends (R122, R124 to R126) -/

/-- What the unescape step puts out, as R122 says it. -/
theorem unescStep_of_output {p : Bool} {b d : Byte}
    (h : (p = true ∧ d = b ^^^ 0x20) ∨ (p = false ∧ b ≠ 0x7D ∧ d = b)) : unescStep p b = (false, some d) := by
  obtain ⟨rfl, rfl⟩ | ⟨rfl, hb, rfl⟩ := h
  · exact unescStep_pending b
  · exact unescStep_plain d hb

/-- A state that takes a push is receiving bytes short of a frame (R30). -/
theorem receiving_of_inv {s : State} (h : Inv s) (ha : acceptsPush s) :
    ∃ bytes, Receiving s bytes s.escPending ∧ ShortOfAFrame bytes := by
  obtain ⟨bytes, hbuf, hphase⟩ := (inv_iff s).mp h
  have hinc := hphase.incomplete ha
  rw [← heldBytes_length s bytes hbuf.held] at hinc
  exact ⟨bytes, ⟨hbuf, ha, rfl⟩, hinc⟩

/-- A push whose unescaped byte is `d` appends it to the bytes held, for which the buffer has room (R124, R30). -/
theorem exec_rxPush_append {s : State} {b d : Byte} (hinv : Inv s) (ha : acceptsPush s)
    (hstep : unescStep s.escPending b = (false, some d)) :
    ∃ bytes, heldBytes s = some bytes ∧ s.len.toNat < Config.bufCap ∧
      exec (.rxPush b) s = finishPush (appended (acceptRaw s false) d) ∧
      heldBytes (appended (acceptRaw s false) d) = some (bytes ++ [d]) := by
  obtain ⟨bytes, hs, hshort⟩ := receiving_of_inv hinv ha
  obtain ⟨hexec, hbuf⟩ := hs.push_append hstep hshort.length_lt_bufCap
  have hheld := hs.buffer.held
  exact ⟨bytes, hheld, heldBytes_length s bytes hheld ▸ hshort.length_lt_bufCap, hexec, hbuf.held⟩

/-- One byte more makes a frame where the count is then the one the length bytes of the buffer give (R125). -/
theorem makesAFrame_append_iff {s : State} {bytes : Bytes} {msb lsb : Byte} (d : Byte) (h : heldBytes s = some bytes)
    (h3 : 3 ≤ s.len.toNat) (hmsb : Memory.read s.buf 1 = some msb) (hlsb : Memory.read s.buf 2 = some lsb) :
    MakesAFrame (bytes ++ [d]) ↔ s.len.toNat + 1 = 256 * msb.toNat + lsb.toNat + 4 := by
  have hlen := heldBytes_length s bytes h
  have hdecl : declaredLength bytes = 256 * msb.toNat + lsb.toNat := by
    rw [declaredLength, byteAt_of_held s bytes h 1 (by omega), byteAt_of_held s bytes h 2 (by omega),
      ((Memory.read_eq_some _ _ _).mp hmsb).2, ((Memory.read_eq_some _ _ _).mp hlsb).2, lengthOfPair]
  rw [MakesAFrame, declaredLength_append bytes d (by omega), hdecl, List.length_append, hlen, List.length_singleton,
    overhead]
  omega

theorem finishPush_incomplete {s : State} (h : frameComplete s = false) : finishPush s = answer s (pushOk s) := by
  rw [finishPush, h]
  rfl

theorem finishPush_hold {s : State} (h : frameComplete s = true) (hc : s.csum = 0xFF) :
    finishPush s = answer (holdFrame s) (pushOk (holdFrame s)) := by
  rw [finishPush, if_pos h, if_pos hc]

theorem finishPush_discard {s : State} (h : frameComplete s = true) (hc : s.csum ≠ 0xFF) :
    finishPush s = answer (discardFrame s) (pushError .checksumMismatch (discardFrame s)) := by
  rw [finishPush, if_pos h, if_neg hc]

/-- `STATUS` after a discarded frame: nothing held, nothing pending, `CKSUM_ERR` (R126). -/
theorem statusWord_discardFrame {s : State} (h : s.escPending = false) :
    statusWord (discardFrame s) = 0x00000003#32 := by
  simp [statusWord, h, rxStateCode]

/-- Settles O29: the byte is appended, and what is then held does not make a frame. -/
theorem pushAppendsTheUnescapedByte : Obligations.PushAppendsTheUnescapedByte := by
  intro s b d hinv ha hout hlen
  obtain ⟨bytes, hheld, hroom, hexec, hheld'⟩ := exec_rxPush_append hinv ha (unescStep_of_output hout)
  have hincomplete : frameComplete (appended (acceptRaw s false) d) = false := by
    rw [← Bool.not_eq_true, frameComplete_iff_makesAFrame hheld']
    by_cases h3 : s.len.toNat < 3
    · rintro ⟨hlong, -⟩
      rw [List.length_append, heldBytes_length s bytes hheld, List.length_singleton] at hlong
      omega
    · obtain hlt | ⟨msb, lsb, hmsb, hlsb, hne⟩ := hlen
      · exact absurd hlt h3
      · exact mt (makesAFrame_append_iff d hheld (Nat.not_lt.mp h3) hmsb hlsb).mp hne
  exact ⟨_, hexec.trans (finishPush_incomplete hincomplete), rfl, rfl, len_add_one_toNat s hroom, rfl,
    Memory.read_write_self _ _ _ hinv.bufCanonical hroom, fun a => Memory.read_write_of_ne _ _ a _, rfl, rfl, rfl⟩

/-- Settles O30: the byte is appended, what is then held makes a frame, and its running checksum decides. -/
theorem completingPushHoldsOrDiscardsTheFrame : Obligations.CompletingPushHoldsOrDiscardsTheFrame := by
  intro s b d msb lsb hinv ha hout h3 hmsb hlsb hlen
  obtain ⟨bytes, hheld, hroom, hexec, hheld'⟩ := exec_rxPush_append hinv ha (unescStep_of_output hout)
  have hcomplete : frameComplete (appended (acceptRaw s false) d) = true :=
    (frameComplete_iff_makesAFrame hheld').mpr ((makesAFrame_append_iff d hheld h3 hmsb hlsb).mpr hlen)
  have hcsum : (appended (acceptRaw s false) d).csum = s.csum + d := if_pos h3
  have hself := Memory.read_write_self _ _ d hinv.bufCanonical hroom
  have hother := fun a => Memory.read_write_of_ne s.buf s.len.toNat a d
  by_cases hsum : s.csum + d = 0xFF
  · have hnext := hexec.trans (finishPush_hold hcomplete (hcsum.trans hsum))
    refine ⟨_, hnext, rfl, hself, hother, rfl, rfl, fun _ => ?_, fun h => absurd hsum h⟩
    exact ⟨rfl, len_add_one_toNat s hroom, hcsum.trans hsum, ⟨bytes, hheld, hheld'⟩, rfl⟩
  · have hnext := hexec.trans (finishPush_discard hcomplete (fun h => hsum (hcsum.symm.trans h)))
    refine ⟨_, hnext, rfl, hself, hother, rfl, rfl, fun h => absurd h hsum, fun _ => ⟨rfl, rfl, rfl, ?_⟩⟩
    rw [respond_resp, pushError, statusWord_discardFrame rfl]

/-! ### The take of a result (R129) -/

/-- Settles O31: the arms of `RX_TAKE`; in `COMPLETE` the output is `buf[0..len-1]`, which `len` bytes of the buffer
are. -/
theorem rxTakeReturnsTheResultAndEmpties : Obligations.RxTakeReturnsTheResultAndEmpties := by
  intro s hinv
  refine ⟨fun hrx => ?_, fun hrx => execRxTake_cksumErr s hrx, fun ha => execRxTake_notReady s ha⟩
  obtain ⟨bytes, hheld⟩ := heldBytes_inside s hinv.lenInside
  exact ⟨bytes, heldBytes_length s bytes hheld, fun k hk => (heldBytes_read s bytes hheld k hk).symm,
    execRxTake_complete s bytes hrx hheld⟩

/-! ### The table of R121 -/

/-- The three ways an accepted push can end, with the status of each (R121, R126, R127). -/
theorem exec_rxPush_accepted {s t : State} {b : Byte} (ha : acceptsPush s) (h : exec (.rxPush b) s = .next t) :
    ∃ r, t.resp = some r ∧ ((t.rxState = .accum ∧ r.st = .ok) ∨ (t.rxState = .complete ∧ r.st = .ok) ∨
      (t.rxState = .cksumErr ∧ r.st = .checksumMismatch)) := by
  obtain ⟨hrx, -⟩ | ⟨-, p, -, rfl⟩ | ⟨-, p, d, -, -, hfinish⟩ := execRxPush_next b s t h
  · rcases ha with ha | ha <;> simp [ha] at hrx
  · exact ⟨_, rfl, .inl ⟨rfl, rfl⟩⟩
  · obtain ⟨-, rfl⟩ | ⟨-, -, rfl⟩ | ⟨-, -, rfl⟩ := finishPush_next _ t hfinish
    · exact ⟨_, rfl, .inl ⟨rfl, rfl⟩⟩
    · exact ⟨_, rfl, .inr (.inl ⟨rfl, rfl⟩)⟩
    · exact ⟨_, rfl, .inr (.inr ⟨rfl, rfl⟩)⟩

/-- A push that leaves the bytes short of a frame answers `OK` and leaves ACCUM (R121, R127). -/
theorem Receiving.push_accum {s : State} {bytes : Bytes} {pending : Bool} (h : Receiving s bytes pending) (b : Byte)
    (hshort : ShortOfAFrame (bytes ++ (unescStep pending b).2.toList)) :
    ∃ t r, exec (.rxPush b) s = .next t ∧ t.resp = some r ∧ t.rxState = .accum ∧ r.st = .ok ∧
      Receiving t (bytes ++ (unescStep pending b).2.toList) (unescStep pending b).1 := by
  obtain ⟨t, hexec, -, ht⟩ := h.push b hshort
  obtain ⟨hne, hne'⟩ := ht.holdsNoResult
  obtain ⟨r, hr, ⟨hrx, hst⟩ | ⟨hrx, -⟩ | ⟨hrx, -⟩⟩ := exec_rxPush_accepted h.accepts hexec
  · exact ⟨t, r, hexec, hr, hrx, hst, ht⟩
  · exact absurd hrx hne
  · exact absurd hrx hne'

/-- The first byte of a read, and the escape byte before it, do not make a frame (R121). -/
theorem exec_rxPush_empty {s : State} (hinv : Inv s) (hrx : s.rxState = .empty) (b : Byte) :
    ∃ t r, exec (.rxPush b) s = .next t ∧ t.resp = some r ∧ t.rxState = .accum ∧ r.st = .ok := by
  have hshort : ShortOfAFrame ([] ++ (unescStep false b).2.toList) := by
    refine .inl ?_
    cases (unescStep false b).2 <;> simp
  obtain ⟨t, r, hexec, hr, hrx', hst, -⟩ := (receiving_of_empty hinv hrx).push_accum b hshort
  exact ⟨t, r, hexec, hr, hrx', hst⟩

/-- Settles O32: row by row, each operation by its own lemma for that state. -/
theorem stateTransitionTable : Obligations.StateTransitionTable := by
  intro s b hinv
  refine ⟨⟨_, _, rfl, rfl, rfl, rfl⟩, ⟨_, rfl, rfl⟩, ?_, ?_⟩
  · cases hrx : s.rxState with
    | empty => exact exec_rxPush_empty hinv hrx b
    | accum =>
      obtain ⟨t, _, hexec, -, -⟩ := everyOperationReturnsAStatus s (.rxPush b) hinv
      obtain ⟨r, hr, hrow⟩ := exec_rxPush_accepted (.inr hrx) hexec
      exact ⟨t, r, hexec, hr, hrow⟩
    | complete => exact ⟨_, _, execRxPush_busy b s (.inl hrx), rfl, hrx, rfl⟩
    | cksumErr => exact ⟨_, _, execRxPush_busy b s (.inr hrx), rfl, hrx, rfl⟩
  · cases hrx : s.rxState with
    | empty => exact ⟨_, _, execRxTake_notReady s (.inl hrx), rfl, hrx, rfl⟩
    | accum => exact ⟨_, _, execRxTake_notReady s (.inr hrx), rfl, hrx, rfl⟩
    | complete =>
      obtain ⟨bytes, hheld⟩ := heldBytes_inside s hinv.lenInside
      exact ⟨_, _, execRxTake_complete s bytes hrx hheld, rfl, rfl, rfl, hheld.symm⟩
    | cksumErr => exact ⟨_, _, execRxTake_cksumErr s hrx, rfl, rfl, rfl⟩

/-! ### The unescaped history of a read (R134) -/

/-- One raw byte more is one unescape step more (R90). -/
theorem unescFrom_concat (pending : Bool) (raw : Bytes) (b : Byte) :
    unescFrom pending (raw ++ [b]) =
      ((unescStep (unescFrom pending raw).1 b).1,
        (unescFrom pending raw).2 ++ (unescStep (unescFrom pending raw).1 b).2.toList) := by
  rw [unescFrom_append, unescFrom_cons, unescFrom_nil, List.append_nil]

/-- Settles O59: the byte the unescape step puts out, if any, is appended to the bytes held, which a frame that failed
its checksum discards. -/
theorem pushKeepsTheUnescapedHistory : Obligations.PushKeepsTheUnescapedHistory := by
  intro s raw b hinv ha hheld hesc
  obtain ⟨bytes, hs, hshort⟩ := receiving_of_inv hinv ha
  obtain rfl : bytes = (unescFrom false raw).2 := Option.some.inj (hs.buffer.held.symm.trans hheld)
  obtain ⟨t, _, hnext, -, -⟩ := everyOperationReturnsAStatus s (.rxPush b) hinv
  refine ⟨t, hnext, ?_⟩
  rw [unescFrom_concat, ← hesc]
  rcases hstep : unescStep s.escPending b with ⟨pending, _ | d⟩
  · cases (hs.push_pending hstep).symm.trans hnext
    exact ⟨rfl, fun _ => by simpa using ((hs.buffer.acceptRaw pending).respond _).held, nofun⟩
  · obtain ⟨hexec, hbuf⟩ := hs.push_append hstep hshort.length_lt_bufCap
    obtain ⟨-, rfl⟩ | ⟨-, -, rfl⟩ | ⟨-, -, rfl⟩ := finishPush_next _ t (hexec.symm.trans hnext)
    · exact ⟨rfl, fun _ => hbuf.held, nofun⟩
    · exact ⟨rfl, fun _ => hbuf.held, nofun⟩
    · exact ⟨rfl, fun hrx => absurd rfl hrx, fun _ => rfl⟩

/-- Settles O34: the bytes before the last one leave the accumulator receiving, and the last one leaves ACCUM. -/
theorem accumulatorHoldsWhatWasPushedUnescaped : Obligations.AccumulatorHoldsWhatWasPushedUnescaped := by
  intro s raw hinv hrx hraw hshort
  obtain ⟨first, b, rfl⟩ := List.eq_nil_or_concat' raw |>.resolve_left hraw
  rw [unescFrom_concat] at hshort ⊢
  have hfirst : ShortOfAFrame (unescFrom false first).2 := ShortOfAFrame.of_append hshort
  obtain ⟨t, hfeed, ht⟩ := (receiving_of_empty hinv hrx).runOps_rxFeed_append first hfirst
  obtain ⟨u, _, hexec, -, hrx', -, hu⟩ := ht.push_accum b hshort
  refine ⟨u, ?_, hrx', hu.buffer.held, hu.pending⟩
  rw [hfeed]
  simp [rxFeed, runOps, hexec]

end Sys2Proof.Machine

/-! PROOFS. 43_command_catalog.md: the index the mnemonic decoder answers (R163) and the fixed rows it finds (R153), the
parameters of a command (R155 to R158), the order of the encoder's checks (R160 to R162), and the AT-Command request
around an encoded command (R166, R167). -/

namespace Sys2Proof.Machine

/-! ### The mnemonic decoder (R153, R163) -/

/-- Mnemonics are unique and have 16 bits, so a table has no more rows than there are mnemonics (R151). -/
theorem CmdTable.rows_length_le (t : CmdTable) : t.rows.length ≤ 2 ^ 16 := by
  obtain ⟨hunique, -⟩ := t.invariants
  have hnodup : (t.rows.map fun r => r.mnem.toFin).Nodup := by
    simpa [Function.comp_def] using hunique.map BitVec.toFin_injective
  simpa using hnodup.length_le_card

/-- A row's mnemonic is answered with the row's index, which 16 bits hold (R163, R164). -/
theorem decodeResponse_row {t : CmdTable} {i : Nat} {r : CmdRow} (h : t.rows[i]? = some r) :
    ∃ q : BitVec 16, q.toNat = i ∧ decodeResponse t r.mnem = okQ q := by
  obtain ⟨hi, -⟩ := List.getElem?_eq_some_iff.mp h
  refine ⟨BitVec.ofNat 16 i, ?_, by rw [decodeResponse, lookup_row t i r h]⟩
  rw [BitVec.toNat_ofNat, Nat.mod_eq_of_lt (hi.trans_le t.rows_length_le)]

theorem decodeResponse_unknown {t : CmdTable} {m : Mnemonic} (h : ∀ r ∈ t.rows, r.mnem ≠ m) :
    decodeResponse t m = errorResponse .noMatch := by
  rw [decodeResponse, (lookup_none t m).mpr h]

/-- Settles O37: a mnemonic is a row's or no row's. -/
theorem cmdDecodeFindsExactlyTheRows : Obligations.CmdDecodeFindsExactlyTheRows := by
  refine ⟨fun s i r hr => ?_, fun s m hm => congrArg (answer s) (decodeResponse_unknown hm)⟩
  obtain ⟨q, hq, hresp⟩ := decodeResponse_row hr
  exact ⟨q, hq, congrArg (answer s) hresp⟩

/-- The range of a numeric row is one of its width (R151). -/
theorem CmdTable.num_range (t : CmdTable) {r : CmdRow} {w : ParamWidth} {min max : Nat} (hr : r ∈ t.rows)
    (hk : r.kind = .num w min max) : min ≤ max ∧ max ≤ maxOfWidth w := by
  obtain ⟨-, hrows, -⟩ := t.invariants
  simpa [hk, rangeOk] using (hrows r hr).2

/-- The row `SC` of a table, with the bounds R151 leaves to `SC_MAX` (R153). -/
theorem CmdTable.exists_rowSC (t : CmdTable) : ∃ scMax, 0x0001 ≤ scMax ∧ scMax ≤ 0xFFFF ∧ rowSC scMax ∈ t.rows := by
  obtain ⟨-, -, -, ⟨r, hr, hsc⟩, -⟩ := t.invariants
  obtain ⟨scMax, rfl⟩ := isRowSC_eq r hsc
  obtain ⟨hlo, hhi⟩ := t.num_range hr rfl
  exact ⟨scMax, hlo, hhi, hr⟩

/-- The row `BH` of a table, with the bound R151 leaves to `BH_MIN` (R153). -/
theorem CmdTable.exists_rowBH (t : CmdTable) : ∃ bhMin, bhMin ≤ 0x1E ∧ rowBH bhMin ∈ t.rows := by
  obtain ⟨-, -, -, -, ⟨r, hr, hbh⟩⟩ := t.invariants
  obtain ⟨bhMin, rfl⟩ := isRowBH_eq r hbh
  obtain ⟨hrange, -⟩ := t.num_range hr rfl
  exact ⟨bhMin, hrange, hr⟩

theorem CmdTable.rowNI_mem (t : CmdTable) : rowNI ∈ t.rows := by
  obtain ⟨-, -, hni, -⟩ := t.invariants
  exact hni

/-- Every row stands at an index, with which its mnemonic is answered (R163). -/
theorem decodeResponse_mem {t : CmdTable} {r : CmdRow} (h : r ∈ t.rows) :
    ∃ (i : Nat) (q : BitVec 16), q.toNat = i ∧ t.rows[i]? = some r ∧ decodeResponse t r.mnem = okQ q := by
  obtain ⟨i, hi⟩ := List.getElem?_of_mem h
  obtain ⟨q, hq, hresp⟩ := decodeResponse_row hi
  exact ⟨i, q, hq, hi, hresp⟩

/-- Settles O38: every table has the three fixed rows (R151, R153). -/
theorem fixedMnemonicWordsDecodeToTheirRows : Obligations.FixedMnemonicWordsDecodeToTheirRows := by
  intro s
  refine ⟨?_, ?_, ?_⟩
  · obtain ⟨i, q, hq, hi, hresp⟩ := decodeResponse_mem s.cmdTable.rowNI_mem
    exact ⟨i, q, hq, hi, congrArg (answer s) hresp⟩
  · obtain ⟨scMax, hlo, hhi, hmem⟩ := s.cmdTable.exists_rowSC
    obtain ⟨i, q, hq, hi, hresp⟩ := decodeResponse_mem hmem
    exact ⟨i, scMax, q, hq, hlo, hhi, hi, congrArg (answer s) hresp⟩
  · obtain ⟨bhMin, hhi, hmem⟩ := s.cmdTable.exists_rowBH
    obtain ⟨i, q, hq, hi, hresp⟩ := decodeResponse_mem hmem
    exact ⟨i, bhMin, q, hq, hhi, hi, congrArg (answer s) hresp⟩

/-! ### The checks of the encoder (R160, R161, R183) -/

section
variable {t : CmdTable} {m : Mnemonic} {r : CmdRow} {a : Action} {f : Byte} {v : BitVec 32} {str : List Scalar}

/-- R161, as the rule states it. -/
theorem actionLegal_iff (k : CmdKind) (a : Action) :
    actionLegal k a = true ↔ (k = .query ∧ a = .none) ∨ (k ≠ .query ∧ (a = .read ∨ a = .write)) := by
  cases k <;> simp [actionLegal]

theorem encodeCommand_unknown (h : ∀ r ∈ t.rows, r.mnem ≠ m) : encodeCommand t m a v str = .error .noMatch := by
  rw [encodeCommand, (lookup_none t m).mpr h]

theorem encodeCommand_illegal (h : r ∈ t.rows) (ha : ¬ actionLegal r.kind a = true) :
    encodeCommand t r.mnem a v str = .error .illegalAction := by
  obtain ⟨i, hi⟩ := lookup_mem t r h
  simp only [encodeCommand, hi, if_neg ha]

theorem encodeCommand_of_param {param : Bytes} (h : r ∈ t.rows) (ha : actionLegal r.kind a = true)
    (hparam : commandParam r.kind a v str = .ok param) :
    encodeCommand t r.mnem a v str = .ok (mnemonicBytes r.mnem ++ param) := by
  obtain ⟨i, hi⟩ := lookup_mem t r h
  simp only [encodeCommand, hi, if_pos ha, hparam]

theorem encodeCommand_of_param_error {st : Status} (h : r ∈ t.rows) (ha : actionLegal r.kind a = true)
    (hparam : commandParam r.kind a v str = .error st) : encodeCommand t r.mnem a v str = .error st := by
  obtain ⟨i, hi⟩ := lookup_mem t r h
  simp only [encodeCommand, hi, if_pos ha, hparam]

/-- Only a `WRITE` has parameter bytes (R158). -/
theorem encodeCommand_without_param (h : r ∈ t.rows)
    (ha : (r.kind = .query ∧ a = .none) ∨ (r.kind ≠ .query ∧ a = .read)) :
    encodeCommand t r.mnem a v str = .ok (mnemonicBytes r.mnem) := by
  have hlegal : actionLegal r.kind a = true := (actionLegal_iff r.kind a).mpr (ha.imp_right (And.imp_right .inl))
  have hwrite : a ≠ .write := by rintro rfl; simp at ha
  rw [encodeCommand_of_param h hlegal (if_neg hwrite), List.append_nil]

/-- The bytes of an encoding are the mnemonic's and the parameter's (R162). -/
theorem encodeCommand_eq_ok {out : Bytes} (h : encodeCommand t m a v str = .ok out) :
    ∃ param, out = mnemonicBytes m ++ param := by
  unfold encodeCommand at h
  split at h
  · cases h
  · split at h
    · split at h
      · cases h
      · cases h; exact ⟨_, rfl⟩
    · cases h

theorem exec_cmdEncode_of {s : State} {result : Except Status Bytes} (h : encodeCommand s.cmdTable m a v str = result) :
    exec (.cmdEncode m a v str) s = answer s (resultOut result) := congrArg (answer s ∘ resultOut) h

/-! ### The AT-Command request (R166, R167) -/

theorem encodeAtRequest_of_error {st : Status} (h : encodeCommand t m a v str = .error st) :
    encodeAtRequest t m a f v str = .error st := by
  rw [encodeAtRequest, h]

theorem encodeAtRequest_of_fits {c : Bytes} (h : encodeCommand t m a v str = .ok c) (hc : c.length + 2 ≤ 65535) :
    encodeAtRequest t m a f v str = .ok (wire (atPayload f c)) := by
  simp only [encodeAtRequest, h]
  exact if_neg (Nat.not_lt.mpr hc)

theorem encodeAtRequest_of_overlong {c : Bytes} (h : encodeCommand t m a v str = .ok c) (hc : 65535 < c.length + 2) :
    encodeAtRequest t m a f v str = .error .lengthOverflow := by
  simp only [encodeAtRequest, h]
  exact if_pos hc

theorem exec_atEncode_of {s : State} {result : Except Status Bytes}
    (h : encodeAtRequest s.cmdTable m a f v str = result) :
    exec (.atEncode m a f v str) s = answer s (resultOut result) := congrArg (answer s ∘ resultOut) h

end

/-- Settles O43: the mnemonic is looked up first, and the action is looked at before the value and the string. -/
theorem illegalActionsAndUnknownMnemonics : Obligations.IllegalActionsAndUnknownMnemonics := by
  refine ⟨fun s r a f v str hr ha => ?_, fun s m a f v str hm => ?_⟩
  · have hcmd := encodeCommand_illegal (v := v) (str := str) hr (mt (actionLegal_iff r.kind a).mp ha)
    exact ⟨exec_cmdEncode_of hcmd, exec_atEncode_of (encodeAtRequest_of_error hcmd)⟩
  · have hcmd := encodeCommand_unknown (a := a) (v := v) (str := str) hm
    exact ⟨exec_cmdEncode_of hcmd, exec_atEncode_of (encodeAtRequest_of_error hcmd)⟩

/-- Settles O39: such an action has no parameter. -/
theorem readAndQueryEncodeToTheMnemonicAlone : Obligations.ReadAndQueryEncodeToTheMnemonicAlone :=
  fun _ _ _ _ _ hr ha => exec_cmdEncode_of (encodeCommand_without_param hr ha)

/-- Settles O45: bytes come from an encoding that completes. -/
theorem everyEncodingStartsWithItsMnemonic : Obligations.EveryEncodingStartsWithItsMnemonic := by
  intro s t m a v str r hexec hresp hok
  cases hexec
  cases hresp
  cases hcmd : encodeCommand s.cmdTable m a v str with
  | error st =>
    rw [hcmd] at hok
    cases hok
    obtain h | h | h := encodeCommand_error hcmd <;> cases h
  | ok out =>
    obtain ⟨param, rfl⟩ := encodeCommand_eq_ok hcmd
    exact ⟨param, rfl⟩

/-- Settles O46: the request follows what the encoder returns. -/
theorem atEncodeWrapsTheEncodedCommand : Obligations.AtEncodeWrapsTheEncodedCommand := by
  intro s m a f v str
  refine ⟨_, rfl, ?_⟩
  cases hcmd : encodeCommand s.cmdTable m a v str with
  | error st => exact ⟨fun _ => exec_atEncode_of (encodeAtRequest_of_error hcmd), nofun⟩
  | ok c =>
    refine ⟨fun hne => absurd rfl hne, fun c' hc' => ?_⟩
    cases hc'
    exact ⟨fun hfits => exec_atEncode_of (encodeAtRequest_of_fits hcmd hfits),
      fun hover => exec_atEncode_of (encodeAtRequest_of_overlong hcmd hover)⟩

/-- Settles O47: a payload of four bytes fits a frame. -/
theorem atRequestOfAReadIsTypeIdMnemonic : Obligations.AtRequestOfAReadIsTypeIdMnemonic :=
  fun _ _ _ _ _ _ hr ha => exec_atEncode_of
    (encodeAtRequest_of_fits (encodeCommand_without_param hr ha) (by simp [mnemonicBytes]))

/-! ### The numeric parameter (R155) -/

@[simp] theorem beBytes_length (n v : Nat) : (beBytes n v).length = n := by
  induction n with
  | zero => rfl
  | succ n ih => simp [beBytes, ih]

/-- Read most significant first, `be_N` of a value gives its low `N` bytes (R9). -/
theorem foldl_beBytes (n v acc : Nat) :
    (beBytes n v).foldl (fun k b => 256 * k + b.toNat) acc = acc * 256 ^ n + v % 256 ^ n := by
  induction n generalizing acc with
  | zero => simp [beBytes, Nat.mod_one]
  | succ n ih =>
    have hsplit : v % 256 ^ (n + 1) = v % 256 ^ n + 256 ^ n * (v / 256 ^ n % 256) := Nat.mod_mul
    rw [beBytes, List.foldl_cons, ih, BitVec.toNat_ofNat, hsplit]
    ring

theorem maxOfWidth_lt_iff (w : ParamWidth) (n : Nat) : maxOfWidth w < n ↔ 2 ^ (8 * w.bytes) ≤ n := by
  cases w <;> exact Iff.rfl

theorem clampTo_of_lt {min max v : Nat} (h : v < min) : clampTo min max v = min := if_pos h

theorem clampTo_of_gt {min max v : Nat} (hrange : min ≤ max) (h : max < v) : clampTo min max v = max := by
  rw [clampTo, if_neg (by omega), if_pos h]

theorem clampTo_le {min max : Nat} (h : min ≤ max) (v : Nat) : clampTo min max v ≤ max := by
  unfold clampTo
  split
  · exact h
  · split <;> omega

/-- A clamped value fits the width, so that its bytes give it back. -/
theorem foldl_beBytes_clampTo {w : ParamWidth} {min max : Nat} (h : min ≤ max) (hmax : max ≤ maxOfWidth w) (v : Nat) :
    (beBytes w.bytes (clampTo min max v)).foldl (fun k b => 256 * k + b.toNat) 0 = clampTo min max v := by
  have hpos : 0 < 256 ^ w.bytes := by positivity
  have hle : clampTo min max v ≤ 256 ^ w.bytes - 1 := (clampTo_le h v).trans hmax
  rw [foldl_beBytes, Nat.zero_mul, Nat.zero_add, Nat.mod_eq_of_lt (by omega)]

section
variable {t : CmdTable} {r : CmdRow} {w : ParamWidth} {min max : Nat} {v : BitVec 32} {str : List Scalar}

theorem encodeCommand_num_fits (hr : r ∈ t.rows) (hk : r.kind = .num w min max) (hv : v.toNat < 2 ^ (8 * w.bytes)) :
    encodeCommand t r.mnem .write v str =
      .ok (mnemonicBytes r.mnem ++ beBytes w.bytes (clampTo min max v.toNat)) := by
  refine encodeCommand_of_param hr (by rw [hk]; rfl) ?_
  rw [hk]
  exact if_neg (mt (maxOfWidth_lt_iff w _).mp (Nat.not_le.mpr hv))

theorem encodeCommand_num_wide (hr : r ∈ t.rows) (hk : r.kind = .num w min max) (hv : 2 ^ (8 * w.bytes) ≤ v.toNat) :
    encodeCommand t r.mnem .write v str = .error .illegalValue := by
  refine encodeCommand_of_param_error hr (by rw [hk]; rfl) ?_
  rw [hk]
  exact if_pos ((maxOfWidth_lt_iff w _).mpr hv)

end

/-- Settles O40: the range of a row lies within its width (R151). -/
theorem numericWriteIsClampedBigEndian : Obligations.NumericWriteIsClampedBigEndian := by
  intro s r w min max v str hr hk
  obtain ⟨hrange, hmax⟩ := s.cmdTable.num_range hr hk
  refine ⟨fun hv => ⟨_, beBytes_length _ _, foldl_beBytes_clampTo hrange hmax v.toNat, ?_⟩, fun hv => ?_⟩
  · exact exec_cmdEncode_of (encodeCommand_num_fits hr hk hv)
  · exact exec_cmdEncode_of (encodeCommand_num_wide hr hk hv)

/-- Settles O44: 0x0000 is below the range of `SC` and 0xFF above that of `BH`, whatever `SC_MAX` and `BH_MIN`. -/
theorem fixedRowExamplesOfTheEncoder : Obligations.FixedRowExamplesOfTheEncoder := by
  intro s str v
  refine ⟨exec_cmdEncode_of (encodeCommand_without_param s.cmdTable.rowNI_mem (.inr ⟨nofun, rfl⟩)), ?_, ?_⟩
  · obtain ⟨scMax, -, -, hmem⟩ := s.cmdTable.exists_rowSC
    have hcmd := encodeCommand_num_fits (v := 0x0000) (str := str) hmem rfl (by decide)
    have hbytes : mnemonicBytes mnemSC ++ beBytes 2 0x0001 = [0x53, 0x43, 0x00, 0x01] := by decide
    rw [clampTo_of_lt (by decide)] at hcmd
    exact exec_cmdEncode_of (hcmd.trans (congrArg Except.ok hbytes))
  · obtain ⟨bhMin, hbhMin, hmem⟩ := s.cmdTable.exists_rowBH
    have hcmd := encodeCommand_num_fits (v := 0xFF) (str := str) hmem rfl (by decide)
    have hbytes : mnemonicBytes mnemBH ++ beBytes 1 0x1E = [0x42, 0x48, 0x1E] := by decide
    rw [clampTo_of_gt (max := Config.bhMax) hbhMin (by decide)] at hcmd
    exact exec_cmdEncode_of (hcmd.trans (congrArg Except.ok hbytes))

/-! ### The string parameter (R156) -/

theorem scalarOk_iff (c : Scalar) : scalarOk c = true ↔ c.toNat ≤ 0x10FFFF ∧ (c.toNat < 0xD800 ∨ 0xDFFF < c.toNat) := by
  simp only [scalarOk, Bool.and_eq_true, Bool.not_eq_true', Bool.and_eq_false_iff, decide_eq_true_eq,
    decide_eq_false_iff_not, Nat.not_le]

section
variable {t : CmdTable} {r : CmdRow} {maxlen : Nat} {v : BitVec 32} {str : List Scalar}

theorem encodeCommand_str_scalars (hr : r ∈ t.rows) (hk : r.kind = .str maxlen)
    (hs : ∀ c ∈ str, scalarOk c = true) :
    encodeCommand t r.mnem .write v str = .ok (mnemonicBytes r.mnem ++ (str.take maxlen).flatMap utf8) := by
  refine encodeCommand_of_param hr (by rw [hk]; rfl) ?_
  rw [hk]
  exact if_pos (List.all_eq_true.mpr hs)

theorem encodeCommand_str_nonScalar (hr : r ∈ t.rows) (hk : r.kind = .str maxlen)
    (hs : ¬ ∀ c ∈ str, scalarOk c = true) :
    encodeCommand t r.mnem .write v str = .error .illegalValue := by
  refine encodeCommand_of_param_error hr (by rw [hk]; rfl) ?_
  rw [hk]
  exact if_neg (mt List.all_eq_true.mp hs)

end

/-- Settles O41: the whole string is checked, whatever `maxlen`. -/
theorem stringWriteIsTruncatedUtf8 : Obligations.StringWriteIsTruncatedUtf8 := by
  intro s r maxlen v str hr hk
  refine ⟨fun hs => ?_, fun ⟨c, hc, hbad⟩ => ?_⟩
  · exact exec_cmdEncode_of (encodeCommand_str_scalars hr hk fun c hc => (scalarOk_iff c).mpr (hs c hc))
  · refine exec_cmdEncode_of (encodeCommand_str_nonScalar hr hk fun hs => ?_)
    have := (scalarOk_iff c).mp (hs c hc)
    omega

/-! ### UTF-8 (R157) -/

/-- A tag and the bits under it: one byte of an encoding (R157). -/
theorem toNat_tag_add_extractLsb' (tag : Byte) {c : Scalar} (start len : Nat) (h : tag.toNat + 2 ^ len ≤ 256) :
    (tag + (c.extractLsb' start len).setWidth 8).toNat = tag.toNat + c.toNat / 2 ^ start % 2 ^ len := by
  have hbits : c.toNat / 2 ^ start % 2 ^ len < 2 ^ len := Nat.mod_lt _ (by positivity)
  rw [BitVec.toNat_add, BitVec.toNat_setWidth, BitVec.extractLsb'_toNat, Nat.shiftRight_eq_div_pow]
  omega

/-- Settles O42: in each range of R157 the first byte holds all the bits that the later bytes leave. -/
theorem utf8BytesOfEveryScalarValue : Obligations.Utf8BytesOfEveryScalarValue := by
  intro c hmax _
  have hbyte := toNat_tag_add_extractLsb' (c := c)
  unfold utf8
  split_ifs
  · simp only [List.map_cons, List.map_nil, BitVec.toNat_setWidth, List.cons.injEq, and_true]
    omega
  all_goals
    simp (disch := decide) only [List.map_cons, List.map_nil, hbyte, BitVec.reduceToNat, List.cons.injEq,
      pow_zero, Nat.div_one, and_true]
    omega

end Sys2Proof.Machine

/-! PROOFS. 60_exceptions.md: the statuses an operation returns and their codes (R180), what a failed operation changes
(R184), and the level `rx_done` (R186). -/

namespace Sys2Proof.Machine

/-! ### Everything an instruction can do -/

/-- The response of a push, and the state it comes with (R126, R127): a refused byte, an accepted one, or one that
completes a frame with a bad checksum, which leaves no escape byte pending. -/
theorem execRxPush_responds {b : Byte} {s t : State} (h : execRxPush b s = .next t) :
    t = respond s (pushError .busy s) ∨
    (∃ u, t = respond u (pushOk u)) ∨
    (∃ u, t = respond (discardFrame u) (pushError .checksumMismatch (discardFrame u)) ∧ u.escPending = false ∧
      u.cmdTable = s.cmdTable ∧ u.issued = s.issued) := by
  obtain ⟨-, rfl⟩ | ⟨-, p, -, rfl⟩ | ⟨-, p, d, hstep, -, hfinish⟩ := execRxPush_next b s t h
  · exact .inl rfl
  · exact .inr (.inl ⟨_, rfl⟩)
  · have hp : p = false := by simpa [hstep] using unescStep_fst s.escPending b
    obtain ⟨-, rfl⟩ | ⟨-, -, rfl⟩ | ⟨-, -, rfl⟩ := finishPush_next _ t hfinish
    · exact .inr (.inl ⟨_, rfl⟩)
    · exact .inr (.inl ⟨_, rfl⟩)
    · exact .inr (.inr ⟨_, rfl, hp, rfl, rfl⟩)

/-- Everything an instruction can do when it gives a next state: answer from the state it found, or what the rule of
its receive operation says (R20, R64). -/
theorem exec_next {i : Instr} {s t : State} (h : exec i s = .next t) :
    (∃ r, pureResponse s.cmdTable i = some r ∧ t = respond s r) ∨
    (i = .rxStart ∧ t = respond (clearAccumulator s) okOnly) ∨
    (∃ b, i = .rxPush b ∧ execRxPush b s = .next t) ∨
    (i = .rxTake ∧ execRxTake s = .next t) ∨
    (i = .rxStatus ∧ t = respond s ⟨.ok, none, none, some (statusWord s)⟩) := by
  cases hp : pureResponse s.cmdTable i with
  | some r =>
    cases (exec_of_pureResponse i s r hp).symm.trans h
    exact .inl ⟨r, rfl, rfl⟩
  | none =>
    cases i
    case rxStart => cases h; exact .inr (.inl ⟨rfl, rfl⟩)
    case rxPush b => exact .inr (.inr (.inl ⟨b, rfl, h⟩))
    case rxTake => exact .inr (.inr (.inr (.inl ⟨rfl, h⟩)))
    case rxStatus => cases h; exact .inr (.inr (.inr (.inr ⟨rfl, rfl⟩)))
    all_goals cases hp

/-! ### The statuses an operation returns (R180) -/

theorem resultOut_st_mem {result : Except Status Bytes} {listed : List Status} (hok : .ok ∈ listed)
    (herr : ∀ st, result = .error st → st ∈ listed) : (resultOut result).st ∈ listed := by
  cases result with
  | ok out => exact hok
  | error st => exact herr st rfl

/-- The word of a row is found (R163). -/
theorem decodeResponse_st_of_mem {t : CmdTable} {r : CmdRow} (h : r ∈ t.rows) :
    (decodeResponse t r.mnem).st = .ok := by
  obtain ⟨-, q, -, -, hresp⟩ := decodeResponse_mem h
  rw [hresp]
  rfl

/-- The statuses of the mnemonic decoder (R163). -/
theorem decodeResponse_st_mem (t : CmdTable) (m : Mnemonic) : (decodeResponse t m).st ∈ [.ok, .noMatch] := by
  unfold decodeResponse
  split
  · exact .tail _ (.head _)
  · exact .head _

/-- A pure operation returns a status of its row: each check raises the status its rule names (R180, R183). The words
`NI`, `SC` and `BH` are found in every table. -/
theorem pureResponse_st_mem {t : CmdTable} {i : Instr} {r : Response} (h : pureResponse t i = some r) :
    r.st ∈ statusesOf i := by
  cases i
  all_goals cases h
  case escape | unescape | chkCompute => exact .head _
  case chkValidate | lenFromPayload | frameEncode => split_ifs <;> simp [statusesOf, errorResponse, okQ, okOut]
  case lenFromRaw => split <;> simp [statusesOf, errorResponse, okOut]
  case cmdEncode =>
    refine resultOut_st_mem (.head _) fun st hst => ?_
    obtain rfl | rfl | rfl := encodeCommand_error hst <;> simp [statusesOf]
  case atEncode =>
    refine resultOut_st_mem (.head _) fun st hst => ?_
    obtain (rfl | rfl | rfl) | rfl := encodeAtRequest_error hst <;> simp [statusesOf]
  case cmdDecode m => exact decodeResponse_st_mem t m
  case ni => exact List.mem_singleton.mpr (decodeResponse_st_of_mem t.rowNI_mem)
  case sc =>
    obtain ⟨scMax, -, -, hmem⟩ := t.exists_rowSC
    exact List.mem_singleton.mpr (decodeResponse_st_of_mem hmem)
  case bh =>
    obtain ⟨bhMin, -, hmem⟩ := t.exists_rowBH
    exact List.mem_singleton.mpr (decodeResponse_st_of_mem hmem)

theorem execRxPush_st_mem {b : Byte} {s t : State} (h : execRxPush b s = .next t) :
    ∃ r, t.resp = some r ∧ r.st ∈ statusesOf (.rxPush b) := by
  obtain rfl | ⟨u, rfl⟩ | ⟨u, rfl, -⟩ := execRxPush_responds h
  · exact ⟨_, rfl, .tail _ (.tail _ (.head _))⟩
  · exact ⟨_, rfl, .head _⟩
  · exact ⟨_, rfl, .tail _ (.head _)⟩

theorem execRxTake_st_mem {s t : State} (h : execRxTake s = .next t) :
    ∃ r, t.resp = some r ∧ r.st ∈ statusesOf .rxTake := by
  obtain ⟨-, rfl⟩ | ⟨-, bytes, -, rfl⟩ | ⟨-, rfl⟩ := execRxTake_next s t h
  · exact ⟨_, rfl, .tail _ (.tail _ (.head _))⟩
  · exact ⟨_, rfl, .head _⟩
  · exact ⟨_, rfl, .tail _ (.head _)⟩

/-- Every operation returns a response with a status of its own row (R180). -/
theorem exec_st_mem {i : Instr} {s t : State} (h : exec i s = .next t) :
    ∃ r, t.resp = some r ∧ r.st ∈ statusesOf i := by
  obtain ⟨r, hp, rfl⟩ | ⟨rfl, rfl⟩ | ⟨b, rfl, hpush⟩ | ⟨rfl, htake⟩ | ⟨rfl, rfl⟩ := exec_next h
  · exact ⟨r, rfl, pureResponse_st_mem hp⟩
  · exact ⟨_, rfl, .head _⟩
  · exact execRxPush_st_mem hpush
  · exact execRxTake_st_mem htake
  · exact ⟨_, rfl, .head _⟩

/-- Settles O55: the response a next state carries is the one the operation returned; the codes are those of the
table. -/
theorem statusesAreThoseListedForTheOperation : Obligations.StatusesAreThoseListedForTheOperation := by
  refine ⟨fun i s t r h hr => ?_, rfl, fun st => by cases st <;> decide⟩
  obtain ⟨r', hr', hmem⟩ := exec_st_mem h
  cases hr.symm.trans hr'
  exact hmem

/-! ### What a failed operation changes (R184) -/

/-- A push that fails refuses the byte, or discards the frame it completes (R126, R127). -/
theorem execRxPush_error {b : Byte} {s t : State} {r : Response} (h : execRxPush b s = .next t) (hr : t.resp = some r)
    (hst : r.st ≠ .ok) :
    t = respond s r ∨ (r.st = .checksumMismatch ∧ t.rxState = .cksumErr ∧ t.len = 0 ∧ t.csum = 0 ∧
      t.escPending = false ∧ t.cmdTable = s.cmdTable ∧ t.issued = s.issued) := by
  obtain rfl | ⟨u, rfl⟩ | ⟨u, rfl, hesc, htable, hissued⟩ := execRxPush_responds h
  · cases hr; exact .inl rfl
  · cases hr; exact absurd rfl hst
  · cases hr; exact .inr ⟨rfl, rfl, rfl, rfl, hesc, htable, hissued⟩

/-- A take that fails has no result yet, or reports the frame that was discarded (R129). -/
theorem execRxTake_error {s t : State} {r : Response} (h : execRxTake s = .next t) (hr : t.resp = some r)
    (hst : r.st ≠ .ok) :
    t = respond s r ∨
      (r.st = .checksumMismatch ∧ s.rxState = .cksumErr ∧ t = respond { s with rxState := .empty } r) := by
  obtain ⟨-, rfl⟩ | ⟨-, bytes, -, rfl⟩ | ⟨hrx, rfl⟩ := execRxTake_next s t h
  · cases hr; exact .inl rfl
  · cases hr; exact absurd rfl hst
  · cases hr; exact .inr ⟨rfl, hrx, rfl⟩

/-- Settles O52: a pure operation changes nothing, a start and a status request do not fail, and a push and a take fail
by their own rules. -/
theorem errorsChangeOnlyWhatTheirRuleNames : Obligations.ErrorsChangeOnlyWhatTheirRuleNames := by
  intro i s t r h hr hst
  obtain ⟨r', -, rfl⟩ | ⟨-, rfl⟩ | ⟨b, rfl, hpush⟩ | ⟨rfl, htake⟩ | ⟨-, rfl⟩ := exec_next h
  · cases hr; exact .inl rfl
  · cases hr; exact absurd rfl hst
  · exact (execRxPush_error hpush hr hst).imp_right fun hdiscard => .inl ⟨b, rfl, hdiscard⟩
  · exact (execRxTake_error htake hr hst).imp_right fun hreport => .inr ⟨rfl, hreport⟩
  · cases hr; exact absurd rfl hst

/-! ### The level `rx_done` (R186) -/

/-- `STATUS.STATE` is the code of the state (R27), and `rx_done` looks for the codes of the two results (R186). -/
theorem rxDone_iff (s : State) : rxDone s = true ↔ s.rxState = .complete ∨ s.rxState = .cksumErr := by
  rw [rxDone, stateField_statusWord]
  cases s.rxState <;> decide

theorem rxDone_of_acceptsPush {s : State} (h : acceptsPush s) : rxDone s = false := by
  rw [← Bool.not_eq_true, rxDone_iff]
  rcases h with h | h <;> simp [h]

/-- Every push gives a copy of `STATUS` after it (R127). -/
theorem execRxPush_stat {b : Byte} {s t : State} (h : execRxPush b s = .next t) :
    ∃ r, t.resp = some r ∧ r.stat = some (statusWord t) := by
  obtain rfl | ⟨u, rfl⟩ | ⟨u, rfl, -⟩ := execRxPush_responds h <;> exact ⟨_, rfl, rfl⟩

/-- `rx_done` and a push's report are the same test on the same word (R127, R186). -/
theorem pushReportsResult_eq_rxDone {b : Byte} {s t : State} (h : execRxPush b s = .next t) :
    pushReportsResult t = rxDone t := by
  obtain ⟨r, hr, hstat⟩ := execRxPush_stat h
  simp only [pushReportsResult, hr, hstat, rxDone]

/-- A take leaves the block ready for a push (R129). -/
theorem execRxTake_acceptsPush {s t : State} (h : execRxTake s = .next t) : acceptsPush t := by
  obtain ⟨ha, rfl⟩ | ⟨-, bytes, -, rfl⟩ | ⟨-, rfl⟩ := execRxTake_next s t h
  · exact ha
  · exact .inl rfl
  · exact .inl rfl

/-- Settles O33: a start and a take leave no result held, and a push reports the level after it. -/
theorem rxDoneLevelFollowsTheResult : Obligations.RxDoneLevelFollowsTheResult := by
  refine ⟨rxDone_iff, fun s => ⟨_, rfl, rxDone_of_acceptsPush (.inl rfl)⟩, fun s hinv => ?_, fun s t b _ h => ?_⟩
  · obtain ⟨t, _, htake, -⟩ := everyOperationReturnsAStatus s .rxTake hinv
    exact ⟨t, htake, rxDone_of_acceptsPush (execRxTake_acceptsPush htake)⟩
  · rw [pushReportsResult_eq_rxDone h]

end Sys2Proof.Machine

/-! PROOFS. 70_reset_and_hazards.md: the reset of the block (R200) and the values of R33. -/

namespace Sys2Proof.Machine

/-- With `len` 0, no escape byte held and the code of EMPTY, every field of `STATUS` is 0 (R27, R33). -/
theorem statusWord_hardwareReset (s : State) : statusWord (hardwareReset s) = 0x00000000#32 := by
  simp [statusWord, rxStateCode]

/-- Settles O2: the reset clears the accumulator's registers, and those are what `RX_START` clears (R130). -/
theorem hardwareResetActsAsRxStart : Obligations.HardwareResetActsAsRxStart := fun s =>
  ⟨hardwareReset_rxState s, hardwareReset_len s, hardwareReset_escPending s, hardwareReset_csum s,
    statusWord_hardwareReset s, rxStartEmptiesTheAccumulator s⟩

end Sys2Proof.Machine
